-- ==== Sys2Proof/Word.lean ====
section
/-! DEFINITION. The two word types of the hardware (00_scope.md R9): a byte is 8 bits, a word is 16 bits, bit 0 is
the least significant bit, and every quantity is unsigned. -/

namespace Sys2Proof

/-- A byte: the addressable unit, an opcode, a register operand byte, an `imm8` (R6, R93). -/
abbrev Byte := BitVec 8

/-- A word: a register, the program counter, an address, the VRAM cursor (R6, R20, R26, R35). -/
abbrev Word := BitVec 16

end Sys2Proof
end

