-- ==== Sys2Proof/Syntax.lean ====
section
/-! DEFINITION. The instructions: one constructor per row of spec/opcode_table.json (30_encoding.md R96, R104), in the
table's order. A register operand is the WHOLE byte of the instruction, 0 to 255 (R93). The two rows LD and the two rows
ST are told apart by their operand shape, as the spec does: absolute and register. -/

namespace Sys2Proof

inductive Instr where
  /-- 0x00 NOP (R220). -/
  | nop
  /-- 0x01 LDI r, imm8 (R120). -/
  | ldi (r imm8 : Byte)
  /-- 0x13 LUI r, imm8 (R121). -/
  | lui (r imm8 : Byte)
  /-- 0x02 MOV r1, r2 (R122). -/
  | mov (r1 r2 : Byte)
  /-- 0x03 ADD r1, r2 (R140). -/
  | add (r1 r2 : Byte)
  /-- 0x04 SUB r1, r2 (R141). -/
  | sub (r1 r2 : Byte)
  /-- 0x0E MUL r1, r2 (R142). -/
  | mul (r1 r2 : Byte)
  /-- 0x0F DIV r1, r2 (R143). -/
  | div (r1 r2 : Byte)
  /-- 0x10 MOD r1, r2 (R144). -/
  | mod (r1 r2 : Byte)
  /-- 0x05 JMP addr16 (R170). -/
  | jmp (addr : Word)
  /-- 0x06 JZ addr16 (R171). -/
  | jz (addr : Word)
  /-- 0x0C JNZ addr16 (R172). -/
  | jnz (addr : Word)
  /-- 0x14 JMPR r (R173). -/
  | jmpr (r : Byte)
  /-- 0x15 JZR r (R174). -/
  | jzr (r : Byte)
  /-- 0x16 JNZR r (R175). -/
  | jnzr (r : Byte)
  /-- 0x07 CMP r1, r2 (R146). -/
  | cmp (r1 r2 : Byte)
  /-- 0x08 LD r, addr16: LD absolute (R190). -/
  | ldAbs (r : Byte) (addr : Word)
  /-- 0x11 LD r1, r2: LD register (R191). -/
  | ldReg (r1 r2 : Byte)
  /-- 0x09 ST r, addr16: ST absolute (R192). -/
  | stAbs (r : Byte) (addr : Word)
  /-- 0x12 ST r1, r2: ST register (R193). -/
  | stReg (r1 r2 : Byte)
  /-- 0x0A OUT r (R210). -/
  | out (r : Byte)
  /-- 0x0B INC r (R145). -/
  | inc (r : Byte)
  /-- 0x0D PRTSTR addr16 (R211). -/
  | prtstr (addr : Word)
  /-- 0xFF HALT (R221). -/
  | halt
  /-- The row ILLEGAL: an opcode byte of the illegal space 0x17 to 0xFE (R97), kept whole, since the fault records it
  (R222, R261). -/
  | illegal (op : Byte)
  deriving DecidableEq, Repr

/-- The six formats (30_encoding.md R91). -/
inductive Format where
  /-- N: opcode alone. -/
  | n
  /-- R: opcode, register byte. -/
  | r
  /-- RI: opcode, register byte, imm8. -/
  | ri
  /-- RR: opcode, r1, r2. -/
  | rr
  /-- A: opcode, low and high byte of addr16. -/
  | a
  /-- RA: opcode, register byte, low and high byte of addr16. -/
  | ra
  deriving DecidableEq, Repr

end Sys2Proof
end

