-- ==== Sys2Proof/WellFormed.lean ====
section
/-! DEFINITION. Which instructions are encodings of the hardware. Every operand byte and every address is legal (30_encoding.md R98,
R99), so the only check is that an `illegal` opcode byte lies in the illegal space 0x17 to 0xFE (R97). -/

namespace Sys2Proof

/-- R97: the illegal opcode bytes are "0x17 to 0xFE inclusive (232 values)". -/
def illegalOpcode (op : Byte) : Bool := 0x17 ≤ op.toNat && op.toNat ≤ 0xFE

/-- An instruction some bytes encode. -/
def Instr.wellFormed : Instr → Bool
  | .nop | .halt => true
  | .ldi _ _ | .lui _ _ => true
  | .mov _ _ | .add _ _ | .sub _ _ | .mul _ _ | .div _ _ | .mod _ _ | .cmp _ _ => true
  | .jmp _ | .jz _ | .jnz _ | .prtstr _ => true
  | .jmpr _ | .jzr _ | .jnzr _ | .out _ | .inc _ => true
  | .ldAbs _ _ | .stAbs _ _ => true
  | .ldReg _ _ | .stReg _ _ => true
  | .illegal op => illegalOpcode op

end Sys2Proof
end

