-- ==== Sys2Proof/Decode.lean ====
section
/-! DEFINITION. From bytes to an instruction and back (30_encoding.md). The opcode byte alone selects the operand shape
(R90, R95), so the opcode map R96 is one table, `shapeOf`: for each opcode byte, its format together with the
instruction its operands make. The decoder over a list of bytes reads that table, and so does the fetch of the machine
(Machine/Fetch.lean). The encoder is written separately, instruction by instruction, from the "Encoding" lines of the
instruction rules. -/

namespace Sys2Proof

/-! ## Byte order (20_memory.md R53: little-endian everywhere) -/

/-- `v[7:0]`. -/
def loByte (v : Word) : Byte := v.extractLsb' 0 8

/-- `v[15:8]`. -/
def hiByte (v : Word) : Byte := v.extractLsb' 8 8

/-- `hi ++ lo`, that is `lo | (hi << 8)` (R57, R94). -/
def joinBytes (hi lo : Byte) : Word := hi ++ lo

/-! ## The opcode map -/

/-- What the opcode byte fixes: the format and, for operands of that format, the instruction. -/
inductive Shape where
  | n (i : Instr)
  | r (f : Byte → Instr)
  | ri (f : Byte → Byte → Instr)
  | rr (f : Byte → Byte → Instr)
  | a (f : Word → Instr)
  | ra (f : Byte → Word → Instr)

/-- The format of a shape (R91). -/
def Shape.format : Shape → Format
  | .n _ => .n
  | .r _ => .r
  | .ri _ => .ri
  | .rr _ => .rr
  | .a _ => .a
  | .ra _ => .ra

/-- The length in bytes of an instruction of a format (R91, R95). -/
def Format.length : Format → Nat
  | .n => 1
  | .r => 2
  | .ri | .rr | .a => 3
  | .ra => 4

/-- The opcode map R96; every other byte, 0x17 to 0xFE, is an unknown opcode of length 1 (R95, R97). -/
def shapeOf (op : Byte) : Shape :=
  match op.toNat with
  | 0x00 => .n .nop
  | 0x01 => .ri .ldi
  | 0x13 => .ri .lui
  | 0x02 => .rr .mov
  | 0x03 => .rr .add
  | 0x04 => .rr .sub
  | 0x0E => .rr .mul
  | 0x0F => .rr .div
  | 0x10 => .rr .mod
  | 0x05 => .a .jmp
  | 0x06 => .a .jz
  | 0x0C => .a .jnz
  | 0x14 => .r .jmpr
  | 0x15 => .r .jzr
  | 0x16 => .r .jnzr
  | 0x07 => .rr .cmp
  | 0x08 => .ra .ldAbs
  | 0x11 => .rr .ldReg
  | 0x09 => .ra .stAbs
  | 0x12 => .rr .stReg
  | 0x0A => .r .out
  | 0x0B => .r .inc
  | 0x0D => .a .prtstr
  | 0xFF => .n .halt
  | _ => .n (.illegal op)

/-! ## The decoder over a list of bytes -/

/-- Why a list of bytes decodes to no instruction: it ends too early. Every opcode byte and every operand byte is
accepted (R99). -/
inductive DecodeError where
  /-- There is no opcode byte. -/
  | noOpcode
  /-- The list ends before the last operand byte of the opcode `op`. -/
  | truncated (op : Byte)
  deriving DecidableEq, Repr

/-- The instruction at the head of a list of bytes, and the bytes after it. Operands are taken in the order of R92, an
`addr16` low byte first (R94). -/
def decode : List Byte → Except DecodeError (Instr × List Byte)
  | [] => .error .noOpcode
  | op :: operands =>
    match shapeOf op, operands with
    | .n i, rest => .ok (i, rest)
    | .r f, r :: rest => .ok (f r, rest)
    | .ri f, r :: imm8 :: rest => .ok (f r imm8, rest)
    | .rr f, r1 :: r2 :: rest => .ok (f r1 r2, rest)
    | .a f, lo :: hi :: rest => .ok (f (joinBytes hi lo), rest)
    | .ra f, r :: lo :: hi :: rest => .ok (f r (joinBytes hi lo), rest)
    | _, _ => .error (.truncated op)

/-! ## The encoder -/

/-- The bytes of an instruction, in fetch order: the "Encoding" line of each instruction's rule. -/
def encode : Instr → List Byte
  | .nop => [0x00]
  | .ldi r imm8 => [0x01, r, imm8]
  | .lui r imm8 => [0x13, r, imm8]
  | .mov r1 r2 => [0x02, r1, r2]
  | .add r1 r2 => [0x03, r1, r2]
  | .sub r1 r2 => [0x04, r1, r2]
  | .mul r1 r2 => [0x0E, r1, r2]
  | .div r1 r2 => [0x0F, r1, r2]
  | .mod r1 r2 => [0x10, r1, r2]
  | .jmp addr => [0x05, loByte addr, hiByte addr]
  | .jz addr => [0x06, loByte addr, hiByte addr]
  | .jnz addr => [0x0C, loByte addr, hiByte addr]
  | .jmpr r => [0x14, r]
  | .jzr r => [0x15, r]
  | .jnzr r => [0x16, r]
  | .cmp r1 r2 => [0x07, r1, r2]
  | .ldAbs r addr => [0x08, r, loByte addr, hiByte addr]
  | .ldReg r1 r2 => [0x11, r1, r2]
  | .stAbs r addr => [0x09, r, loByte addr, hiByte addr]
  | .stReg r1 r2 => [0x12, r1, r2]
  | .out r => [0x0A, r]
  | .inc r => [0x0B, r]
  | .prtstr addr => [0x0D, loByte addr, hiByte addr]
  | .halt => [0xFF]
  | .illegal op => [op]

/-- The opcode byte of an instruction (R96); the fault record holds it (60_exceptions.md R261). -/
def opcodeOf : Instr → Byte
  | .nop => 0x00
  | .ldi _ _ => 0x01
  | .lui _ _ => 0x13
  | .mov _ _ => 0x02
  | .add _ _ => 0x03
  | .sub _ _ => 0x04
  | .mul _ _ => 0x0E
  | .div _ _ => 0x0F
  | .mod _ _ => 0x10
  | .jmp _ => 0x05
  | .jz _ => 0x06
  | .jnz _ => 0x0C
  | .jmpr _ => 0x14
  | .jzr _ => 0x15
  | .jnzr _ => 0x16
  | .cmp _ _ => 0x07
  | .ldAbs _ _ => 0x08
  | .ldReg _ _ => 0x11
  | .stAbs _ _ => 0x09
  | .stReg _ _ => 0x12
  | .out _ => 0x0A
  | .inc _ => 0x0B
  | .prtstr _ => 0x0D
  | .halt => 0xFF
  | .illegal op => op

/-- The format of an instruction (the format column of R96). -/
def formatOf : Instr → Format
  | .nop | .halt | .illegal _ => .n
  | .jmpr _ | .jzr _ | .jnzr _ | .out _ | .inc _ => .r
  | .ldi _ _ | .lui _ _ => .ri
  | .mov _ _ | .add _ _ | .sub _ _ | .mul _ _ | .div _ _ | .mod _ _ | .cmp _ _ => .rr
  | .ldReg _ _ | .stReg _ _ => .rr
  | .jmp _ | .jz _ | .jnz _ | .prtstr _ => .a
  | .ldAbs _ _ | .stAbs _ _ => .ra

/-- The length of an instruction in bytes (R95). -/
def instrLength (i : Instr) : Nat := (formatOf i).length

/-! ## Words numbered as spec/opcode_table.json numbers them -/

/-- The four bytes, lowest address first, of an instruction whose bits are `w`: bit 0 of `w` is the least significant bit
of the first byte, bit 8 that of the second; every bit from `nbits` on is 0. Four bytes hold the longest instruction
(R90). -/
def tableBytes (nbits w : Nat) : List Byte :=
  let v := w % 2 ^ nbits
  [BitVec.ofNat 8 v, BitVec.ofNat 8 (v / 0x100), BitVec.ofNat 8 (v / 0x10000), BitVec.ofNat 8 (v / 0x1000000)]

/-- The instruction the decoder reads from a table word. -/
def decodeTableWord (nbits w : Nat) : Option Instr :=
  match decode (tableBytes nbits w) with
  | .ok (i, _) => some i
  | .error _ => none

end Sys2Proof
end

