-- ==== Sys2Proof/Config.lean ====
section
/-! DEFINITION. The open parameters of the hardware (00_scope.md R7): what an implementation fixes and no sentence of
the spec's source gives. They are plain data carried by `State` in the field `params` (log 1), so that every statement
about a state holds for every value of them. `IMAGE` and `TEXT_BASE` (R7 (c), (d)) are no fields: the first is the
memory a run starts with, the second an argument of the loader (Machine/HostMoves.lean). -/

namespace Sys2Proof

/-- The five port addresses of the address router (R7 (a)) and `OUT_SUFFIX` (R7 (b)). -/
structure Params where
  /-- `PORT_CHAR_OUT`, the character-output port (R63). -/
  portCharOut : Word
  /-- `PORT_VRAM_ADDR_LO` (R64). -/
  portVramAddrLo : Word
  /-- `PORT_VRAM_ADDR_HI` (R65). -/
  portVramAddrHi : Word
  /-- `PORT_VRAM_DATA` (R66). -/
  portVramData : Word
  /-- `PORT_PRESENT` (R67). -/
  portPresent : Word
  /-- `OUT_SUFFIX`: bytes appended to the text of a number (R210); read by the text rendering only. -/
  outSuffix : List Byte
  deriving DecidableEq, Repr

/-- The five ports in the priority order of the routing table (R62). -/
def Params.ports (p : Params) : List Word :=
  [p.portCharOut, p.portVramAddrLo, p.portVramAddrHi, p.portVramData, p.portPresent]

/-- R7: "The five must be pairwise distinct". -/
abbrev Params.PortsDistinct (p : Params) : Prop := p.ports.Nodup

end Sys2Proof
end

