-- ==== Sys2Proof/Machine/ResetValues.lean ====
section
/-! DEFINITION. The values the machine has at reset where the spec's source does not state them or leaves them open
(10_state.md R46 to R49), what a byte nothing has written reads as (R45, R49), and the parameters `State.reset` carries. -/

namespace Sys2Proof.Machine

/-- What an address not listed in `mem` or `vram` reads as. Plain memory is "zero-initialized at construction" (R45); the
VRAM's zero is the spec's decision D14 (R49, UNVERIFIED, log 9). -/
def unlistedByte : Byte := 0x00

/-- R46, the spec's decision D11 (UNVERIFIED, log 8). -/
def resetPc : Word := 0x0000

/-- R47, the spec's decision D12 (UNVERIFIED, log 9); for r0 it is R21. -/
def resetReg : Word := 0x0000

/-- R48, the spec's decision D13 (UNVERIFIED, log 9). -/
def resetZ : Bool := false

/-- R49, the spec's decision D14 (UNVERIFIED, log 9). -/
def resetVramCursor : Word := 0x0000

/-- R49, the spec's decision D14 (UNVERIFIED, log 9). -/
def resetFrameReady : Bool := false

/-- The parameters `State.reset` carries: the spec's own test configuration TESTCFG (R8) and the default `OUT_SUFFIX`
(R7 (b)). DESIGN CHOICE, unsafe, log 1: the port addresses are open in the spec, and no statement rests on these. -/
def launchParams : Params where
  portCharOut := 0xFF00
  portVramAddrLo := 0xFF01
  portVramAddrHi := 0xFF02
  portVramData := 0xFF03
  portPresent := 0xFF04
  outSuffix := []

end Sys2Proof.Machine
end

