-- ==== Sys2Proof/Machine/State.lean ====
section
/-! DEFINITION. The state of the CORE (10_state.md, the tuple at its head, and the output trace of 50_interfaces.md R236),
its reset, and the ways a step can stop. Plain data throughout. -/

namespace Sys2Proof.Machine

/-- An event of the output trace (50_interfaces.md R236). -/
inductive Event where
  /-- `Dec(v)`, emitted by OUT (R210). -/
  | dec (v : Word)
  /-- `Char(b)`, emitted by PRTSTR (R211) and by a store to the character port (R63). -/
  | char (b : Byte)
  /-- `DisplayWrite(a, b)`, emitted by a store to the VRAM-data port (R66): one call `write(a, b)` of the display
  controller (R241). -/
  | displayWrite (a : Word) (b : Byte)
  deriving DecidableEq, Repr

/-- The cause of a fatal fault (60_exceptions.md R260, R261); `none` is the spec's cause 0. -/
inductive Cause where
  | none
  | unknownOpcode
  | addOverflow
  | subUnderflow
  | mulOverflow
  | divByZero
  | modByZero
  deriving DecidableEq, Repr

/-- What an arithmetic fault records of its operands: the register operand bytes and the values read (R261). -/
structure FaultOperands where
  r1 : Byte
  r2 : Byte
  a : Word
  b : Word
  deriving DecidableEq, Repr

/-- `fault.info` (10_state.md R34, 60_exceptions.md R261): the address of the faulting instruction's opcode byte, that
byte, and for an arithmetic fault its operands. -/
structure FaultInfo where
  opAddr : Word
  opcode : Byte
  operands : Option FaultOperands
  deriving DecidableEq, Repr

/-- The fault record (10_state.md R34). `info` is empty exactly when no fault has happened (R49). -/
structure FaultRecord where
  cause : Cause
  info : Option FaultInfo
  deriving DecidableEq, Repr

/-- A byte array of 65536 bytes, as the list of its cells that differ from `unlistedByte`, addresses rising
(`Memory.wf`, Machine/Ops.lean). -/
abbrev Memory := List Host.Cell

/-- The complete state of the CORE (10_state.md), its output trace (R236), and the open parameters (R7). -/
structure State where
  /-- `reg[0..15]` (R20); `reg[0]` is forced to zero at the end of every step (R21). -/
  regs : Vector Word 16
  /-- The program counter (R26). -/
  pc : Word
  /-- The zero flag `Z` (R30). -/
  z : Bool
  /-- The running flag (R33); false is the state *Halted*. -/
  running : Bool
  /-- The fault record (R34). -/
  fault : FaultRecord
  /-- Plain memory (R50). -/
  mem : Memory
  /-- The VRAM staging region (R36). -/
  vram : Memory
  /-- The VRAM address cursor (R35). -/
  vramCursor : Word
  /-- The frame-ready flag (R37). -/
  frameReady : Bool
  /-- The output trace, oldest event first (R236). -/
  trace : List Event
  /-- The model's own field: the open parameters of R7, which nothing writes (log 1). -/
  params : Params
  deriving DecidableEq, Repr

/-- The reset state of a machine with parameters `p` (R44 to R49, R300). -/
def State.resetWith (p : Params) : State where
  regs := Vector.replicate 16 resetReg
  pc := resetPc
  z := resetZ
  running := true
  fault := { cause := .none, info := none }
  mem := []
  vram := []
  vramCursor := resetVramCursor
  frameReady := resetFrameReady
  trace := []
  params := p

/-- The machine right after reset. -/
def State.reset : State := State.resetWith launchParams

/-- The ways a step of this machine has no successor state. The six FATAL FAULTS of the spec (60_exceptions.md R260) are
none of them: they are taken, as a next state that is halted (`State.raiseFault`). -/
inductive Fault where
  /-- Raised by PRTSTR when plain memory holds no zero byte: the instruction "never completes" and the spec asks for "a
  hang (a step with no successor state)" (44_output.md R212). Safe: nothing is claimed of what follows (log 13). -/
  | prtstrNeverCompletes
  deriving DecidableEq, Repr

/-- Reasons a step is refused. -/
inductive Refusal where
  /-- Raised by `exec` for an instruction that has no meaning yet; no arm of this model raises it. Safe. -/
  | notModelled (mnemonic : String)
  deriving DecidableEq, Repr

end Sys2Proof.Machine
end

