-- ==== Sys2Proof/Machine/Ops.lean ====
section
/-! DEFINITION. The named operations over the state: the byte arrays and their canonical form, the memory primitives
(20_memory.md R58, R59), the address router (R62 to R69), the output trace (50_interfaces.md R236), fault entry
(60_exceptions.md R262) and the end of a step (10_state.md R21). There is no return from a fault (60_exceptions.md R265),
so there is no operation for one. -/

namespace Sys2Proof.Machine

/-! ## Byte arrays -/

/-- The byte at address `a`. -/
def Memory.read : Memory → Nat → Byte
  | [], _ => unlistedByte
  | (k, v) :: m, a => if k = a then v else Memory.read m a

/-- Puts a cell at its place in a list with rising addresses. -/
def Memory.insertCell (c : Host.Cell) : Memory → Memory
  | [] => [c]
  | d :: m => if d.1 < c.1 then d :: Memory.insertCell c m else c :: d :: m

/-- Writes the byte `v` at address `a`: whatever was listed at `a` goes, and `v` is listed unless an unlisted address reads
as `v` already. -/
def Memory.write (m : Memory) (a : Nat) (v : Byte) : Memory :=
  let others := m.filter (fun c => c.1 ≠ a)
  if v = unlistedByte then others else Memory.insertCell (a, v) others

/-- The canonical form: addresses strictly rising, each inside the 65536-byte array (R50, R36), and no entry equal to what
an unlisted address reads as. Two arrays in this form with equal bytes are equal lists. -/
abbrev Memory.wf (m : Memory) : Prop :=
  m.Pairwise (fun c d => c.1 < d.1) ∧ ∀ c ∈ m, c.1 < 65536 ∧ c.2 ≠ unlistedByte

/-! ## Updates of one field -/

/-- `pc <- t` (R10). -/
def State.setPc (s : State) (t : Word) : State := { s with pc := t }

/-- `Z <- b` (R10). -/
def State.setZ (s : State) (b : Bool) : State := { s with z := b }

/-- `running <- 0` (R33). -/
def State.halt (s : State) : State := { s with running := false }

/-- Writes the fault record (R34). -/
def State.setFault (s : State) (f : FaultRecord) : State := { s with fault := f }

/-- `vram_cursor <- v` (R35). -/
def State.setCursor (s : State) (v : Word) : State := { s with vramCursor := v }

/-- `frame_ready <- 1` (R67). -/
def State.armFrame (s : State) : State := { s with frameReady := true }

/-- `Emit`, for a list of events in order: appends them to the output trace (50_interfaces.md R236). -/
def State.emitAll (s : State) (es : List Event) : State := { s with trace := s.trace ++ es }

/-- `Emit(e)` (R236). -/
def State.emit (s : State) (e : Event) : State := s.emitAll [e]

/-! ## Plain memory and VRAM -/

/-- `mem[a]`, which is `MemRead(a, 1)` (R58). -/
def State.readByte (s : State) (a : Word) : Byte := Memory.read s.mem a.toNat

/-- `MemWrite(a, 1, v)` (R59): `mem[a] <- b`. -/
def State.writeByte (s : State) (a : Word) (b : Byte) : State := { s with mem := Memory.write s.mem a.toNat b }

/-- `MemRead(a, 2)` (R58): `mem[(a + 1) mod 65536] ++ mem[a]`. The wrap at 0xFFFF is the spec's decision D8 (R60,
UNVERIFIED, log 6). -/
def State.readWord (s : State) (a : Word) : Word := joinBytes (s.readByte (a + 1)) (s.readByte a)

/-- `MemWrite(a, 2, v)` (R59): low byte at `a`, then high byte at `(a + 1) mod 65536` (D8, log 6). -/
def State.writeWord (s : State) (a : Word) (v : Word) : State :=
  (s.writeByte a (loByte v)).writeByte (a + 1) (hiByte v)

/-- `vram[a]` (R36). -/
def State.vramByte (s : State) (a : Word) : Byte := Memory.read s.vram a.toNat

/-- `vram[a] <- b` (R36, R66). -/
def State.writeVram (s : State) (a : Word) (b : Byte) : State := { s with vram := Memory.write s.vram a.toNat b }

/-! ## The address router -/

/-- Is `a` one of the five ports? (R51, R62) -/
def State.isPort (s : State) (a : Word) : Bool := a ∈ s.params.ports

/-- `RouterStore(a, v)` (R62): the only way an instruction writes memory or a device. First match wins. Cases 1 to 5 are the
ports and touch no plain memory; only `a` is compared, never `a + 1` (R69, D28, log 15). -/
def State.routerStore (s : State) (a v : Word) : State :=
  if a = s.params.portCharOut then s.emit (.char (loByte v))                                        -- R63
  else if a = s.params.portVramAddrLo then s.setCursor (joinBytes (hiByte s.vramCursor) (loByte v)) -- R64
  else if a = s.params.portVramAddrHi then s.setCursor (joinBytes (loByte v) (loByte s.vramCursor)) -- R65, D10, log 10
  else if a = s.params.portVramData then
    (s.writeVram s.vramCursor (loByte v)).emit (.displayWrite s.vramCursor (loByte v))              -- R66
  else if a = s.params.portPresent then s.armFrame                                                  -- R67
  else s.writeWord a v                                                                              -- R68

/-! ## Fault entry and the end of a step -/

/-- `raise Fault(cause, info)` by the instruction `i`, whose operand bytes have been fetched (R262): records the cause, the
address of the opcode byte (`pc` is past the instruction, so it is `pc` less the instruction's length), the opcode byte and
the operands, and clears `running`. Nothing else changes: no register, no flag, and `pc` stays past the instruction (D6,
log 5). `reg[0] <- 0` is the end of the step (`State.endStep`). -/
def State.raiseFault (s : State) (i : Instr) (c : Cause) (operands : Option FaultOperands) : State :=
  (s.setFault
    { cause := c
      info := some
        { opAddr := s.pc - BitVec.ofNat 16 (instrLength i)
          opcode := opcodeOf i
          operands := operands } }).halt

/-- "force register 0 back to zero unconditionally", the last act of every step (R11 (4), R21). -/
def State.endStep (s : State) : State := { s with regs := s.regs.set 0 0 }

/-- Ends the step of an instruction that has a successor state. -/
def completeStep : Host.Outcome State Fault Refusal → Host.Outcome State Fault Refusal
  | .next t => .next t.endStep
  | .fault f => .fault f
  | .refused r => .refused r

/-- The number of a cause (R261), 3 bits (R38): the spec's own numbers (D15, log 11). -/
def Cause.code : Cause → BitVec 3
  | .none => 0
  | .unknownOpcode => 1
  | .addOverflow => 2
  | .subUnderflow => 3
  | .mulOverflow => 4
  | .divByZero => 5
  | .modByZero => 6

end Sys2Proof.Machine
end

