-- ==== Sys2Proof/Machine/Operands.lean ====
section
/-! DEFINITION. The operand forms: a register operand byte read through the read port (10_state.md R22) and written through
the write port (R23), and the immediate byte (30_encoding.md R94). An `addr16` operand is the word itself, used as is
(R94). -/

namespace Sys2Proof.Machine

/-- What a register operand byte of 16 or more reads as (R22, third line): the spec's decision D3 (UNVERIFIED, log 2). -/
def outOfRangeRead : Word := 0x0000

/-- `x[b]`, the register read port (R22): 0 for r0, the stored word for r1 to r15. -/
def State.x (s : State) (b : Byte) : Word :=
  if h : b.toNat < 16 then (if b = 0 then 0x0000 else s.regs[b.toNat]) else outOfRangeRead

/-- `x[b] <- v`, the register write port (R23): "performs `reg[b] <- v` if `1 <= b <= 15`, and does nothing if `b = 0` or
`b >= 16`". -/
def State.setX (s : State) (b : Byte) (v : Word) : State :=
  if h : 1 ≤ b.toNat ∧ b.toNat ≤ 15 then { s with regs := s.regs.set b.toNat v } else s

/-- `zext_16(imm8)` (R94): the immediate as LDI uses it. -/
def zext16 (imm8 : Byte) : Word := imm8.setWidth 16

end Sys2Proof.Machine
end

