-- ==== Sys2Proof/Machine/Fetch.lean ====
section
/-! DEFINITION. Instruction fetch (20_memory.md R56, R57; 00_scope.md R11 (1), (2)): the opcode byte, then every operand byte
of its shape in the order of 30_encoding.md R92, each fetch advancing `pc`. Fetches read plain memory, never a port (R61,
D29, log 15). Also the loader's unrouted write of bytes (50_interfaces.md R234), which the loader and the host's
`withFetchWord` share. -/

namespace Sys2Proof.Machine

/-- `fetch8()` (R56): the byte at `pc`, and the state with `pc` one further, modulo 65536 (R28, D7, log 6). -/
def State.fetch8 (s : State) : Byte × State := (s.readByte s.pc, s.setPc (s.pc + 1))

/-- `fetch16()` (R57): two `fetch8()`, low byte first. -/
def State.fetch16 (s : State) : Word × State :=
  let lo := s.fetch8
  let hi := lo.2.fetch8
  (joinBytes hi.1 lo.1, hi.2)

/-- The fetch and decode of one instruction (R11 (1), (2)): the instruction at `pc`, and the state in which its rule runs,
with `pc` past it. The opcode byte alone decides which operand bytes are fetched (R95); an unknown opcode fetches none
(R222, D27). -/
def State.fetchInstr (s : State) : Instr × State :=
  let op := s.fetch8
  match shapeOf op.1 with
  | .n i => (i, op.2)
  | .r f =>
    let r := op.2.fetch8
    (f r.1, r.2)
  | .ri f =>
    let r := op.2.fetch8
    let imm8 := r.2.fetch8
    (f r.1 imm8.1, imm8.2)
  | .rr f =>
    let r1 := op.2.fetch8
    let r2 := r1.2.fetch8
    (f r1.1 r2.1, r2.2)
  | .a f =>
    let addr := op.2.fetch16
    (f addr.1, addr.2)
  | .ra f =>
    let r := op.2.fetch8
    let addr := r.2.fetch16
    (f r.1 addr.1, addr.2)

/-- The `n` bytes of plain memory from address `a` upward, modulo 65536. -/
def State.bytesAt (s : State) : Word → Nat → List Byte
  | _, 0 => []
  | a, n + 1 => s.readByte a :: s.bytesAt (a + 1) n

/-- The loader's write (R234): puts the bytes into plain memory from address `a` upward, not routed. Past 0xFFFF it goes on
at 0x0000 (DESIGN CHOICE, log 18). -/
def State.loadBytes (s : State) : Word → List Byte → State
  | _, [] => s
  | a, b :: bs => (s.writeByte a b).loadBytes (a + 1) bs

end Sys2Proof.Machine
end

