-- ==== Sys2Proof/Machine/Flags.lean ====
section
/-! DEFINITION. The one flag (10_state.md R30 to R32): how a result sets `Z`, and the act the eleven register-writing
instructions end with. There is no carry, sign or overflow flag (R30). -/

namespace Sys2Proof.Machine

/-- `Z` of a result (R31): "true iff that result is zero". -/
def zeroFlag (result : Word) : Bool := result == 0

/-- `Z` of a comparison (R31, R146): `x[r1] = x[r2]`. -/
def equalFlag (a b : Word) : Bool := a == b

/-- `x[b] <- result; Z <- (result = 0)` (R23, R31): the result goes to the write port of the register operand byte `b`, which
may discard it, and `Z` follows the result in either case (for a discarded write this is the spec's decision D4,
UNVERIFIED, log 3). -/
def State.writeResult (s : State) (b : Byte) (result : Word) : State := (s.setX b result).setZ (zeroFlag result)

end Sys2Proof.Machine
end

