-- ==== Sys2Proof/Machine/Arithmetic.lean ====
section
/-! DEFINITION. Arithmetic and compare instructions: ADD, SUB, MUL, DIV, MOD, INC, CMP (41_arithmetic.md). Values are unsigned and
computed exactly on natural numbers (R147, R148); the fault condition is checked on the values read before anything is
written, whatever the destination (D5, D6, log 4, log 5). -/

namespace Sys2Proof.Machine

/-- A two-register arithmetic instruction `i` with register operand bytes `r1`, `r2` (R140 to R144): reads both, raises the
fault `c` if `bad` holds of the values, else writes the exact result to `r1`. -/
def arith (i : Instr) (r1 r2 : Byte) (c : Cause) (bad : Nat → Nat → Bool) (result : Nat → Nat → Nat) (s : State) :
    Host.Outcome State Fault Refusal :=
  let a := s.x r1
  let b := s.x r2
  if bad a.toNat b.toNat then .next (s.raiseFault i c (some { r1 := r1, r2 := r2, a := a, b := b }))
  else .next (s.writeResult r1 (BitVec.ofNat 16 (result a.toNat b.toNat)))

/-- ADD (R140): faults when `a + b > 0xFFFF`. -/
def execAdd (r1 r2 : Byte) (s : State) : Host.Outcome State Fault Refusal :=
  arith (.add r1 r2) r1 r2 .addOverflow (fun a b => 0xFFFF < a + b) (fun a b => a + b) s

/-- SUB (R141): faults when `a < b`, compared as unsigned values. -/
def execSub (r1 r2 : Byte) (s : State) : Host.Outcome State Fault Refusal :=
  arith (.sub r1 r2) r1 r2 .subUnderflow (fun a b => a < b) (fun a b => a - b) s

/-- MUL (R142): faults when the exact product exceeds 0xFFFF. -/
def execMul (r1 r2 : Byte) (s : State) : Host.Outcome State Fault Refusal :=
  arith (.mul r1 r2) r1 r2 .mulOverflow (fun a b => 0xFFFF < a * b) (fun a b => a * b) s

/-- DIV (R143): faults when the divisor is 0; the quotient truncates. -/
def execDiv (r1 r2 : Byte) (s : State) : Host.Outcome State Fault Refusal :=
  arith (.div r1 r2) r1 r2 .divByZero (fun _ b => b = 0) (fun a b => a / b) s

/-- MOD (R144): faults when the divisor is 0. -/
def execMod (r1 r2 : Byte) (s : State) : Host.Outcome State Fault Refusal :=
  arith (.mod r1 r2) r1 r2 .modByZero (fun _ b => b = 0) (fun a b => a % b) s

/-- INC (R145): modulo 65536, no fault (the spec's decision D9, log 7). -/
def execInc (r : Byte) (s : State) : Host.Outcome State Fault Refusal :=
  .next (s.writeResult r (s.x r + 1))

/-- CMP (R146): writes `Z` and nothing else. -/
def execCmp (r1 r2 : Byte) (s : State) : Host.Outcome State Fault Refusal :=
  .next (s.setZ (equalFlag (s.x r1) (s.x r2)))

end Sys2Proof.Machine
end

