-- ==== Sys2Proof/Machine/ControlTransfer.lean ====
section
/-! DEFINITION. Control transfer instructions: JMP, JZ, JNZ, JMPR, JZR, JNZR (42_control_transfer.md). Targets are absolute, from
the instruction or from a register; a jump not taken leaves `pc` past the instruction (R176). -/

namespace Sys2Proof.Machine

/-- Jumps to `target` if `taken`, else falls through (R171). -/
def State.jumpIf (s : State) (taken : Bool) (target : Word) : State := if taken then s.setPc target else s

/-- JMP (R170). -/
def execJmp (addr : Word) (s : State) : Host.Outcome State Fault Refusal := .next (s.setPc addr)

/-- JZ (R171). -/
def execJz (addr : Word) (s : State) : Host.Outcome State Fault Refusal := .next (s.jumpIf s.z addr)

/-- JNZ (R172). -/
def execJnz (addr : Word) (s : State) : Host.Outcome State Fault Refusal := .next (s.jumpIf (!s.z) addr)

/-- JMPR (R173). -/
def execJmpr (r : Byte) (s : State) : Host.Outcome State Fault Refusal := .next (s.setPc (s.x r))

/-- JZR (R174). -/
def execJzr (r : Byte) (s : State) : Host.Outcome State Fault Refusal := .next (s.jumpIf s.z (s.x r))

/-- JNZR (R175). -/
def execJnzr (r : Byte) (s : State) : Host.Outcome State Fault Refusal := .next (s.jumpIf (!s.z) (s.x r))

end Sys2Proof.Machine
end

