-- ==== Sys2Proof/Machine/LoadStore.lean ====
section
/-! DEFINITION. Load and store instructions, absolute and register (43_load_store.md). Loads read plain memory and are never
intercepted (20_memory.md R61); stores go through the address router (R62). -/

namespace Sys2Proof.Machine

/-- LD absolute (R190). -/
def execLdAbs (r : Byte) (addr : Word) (s : State) : Host.Outcome State Fault Refusal :=
  .next (s.writeResult r (s.readWord addr))

/-- LD register (R191): the address is read before the register is written. -/
def execLdReg (r1 r2 : Byte) (s : State) : Host.Outcome State Fault Refusal :=
  .next (s.writeResult r1 (s.readWord (s.x r2)))

/-- ST absolute (R192): `RouterStore(addr16, x[r])`. -/
def execStAbs (r : Byte) (addr : Word) (s : State) : Host.Outcome State Fault Refusal :=
  .next (s.routerStore addr (s.x r))

/-- ST register (R193): `RouterStore(x[r2], x[r1])`. -/
def execStReg (r1 r2 : Byte) (s : State) : Host.Outcome State Fault Refusal :=
  .next (s.routerStore (s.x r2) (s.x r1))

end Sys2Proof.Machine
end

