-- ==== Sys2Proof/Machine/MoveImmediate.lean ====
section
/-! DEFINITION. Immediate and move instructions: LDI, LUI, MOV (40_move_immediate.md). In every meaning of this model the operand
bytes have been fetched and `pc` is past the instruction (00_scope.md R11). -/

namespace Sys2Proof.Machine

/-- LDI (R120): the whole register is replaced by the zero-extended immediate (90_conflicts.md C2). -/
def execLdi (r imm8 : Byte) (s : State) : Host.Outcome State Fault Refusal :=
  .next (s.writeResult r (zext16 imm8))

/-- LUI (R121): `imm8 ++ x[r][7:0]`. -/
def execLui (r imm8 : Byte) (s : State) : Host.Outcome State Fault Refusal :=
  .next (s.writeResult r (joinBytes imm8 (loByte (s.x r))))

/-- MOV (R122). -/
def execMov (r1 r2 : Byte) (s : State) : Host.Outcome State Fault Refusal :=
  .next (s.writeResult r1 (s.x r2))

end Sys2Proof.Machine
end

