-- ==== Sys2Proof/Machine/System.lean ====
section
/-! DEFINITION. System instructions and the unknown opcode: NOP, HALT, ILLEGAL (45_system.md). -/

namespace Sys2Proof.Machine

/-- NOP (R220): nothing beyond the fetch. -/
def execNop (s : State) : Host.Outcome State Fault Refusal := .next s

/-- HALT (R221): `running <- 0`; the fault record keeps cause 0. -/
def execHalt (s : State) : Host.Outcome State Fault Refusal := .next s.halt

/-- An unknown opcode (R222): the fatal fault UnknownOpcode, with no operands. -/
def execIllegal (op : Byte) (s : State) : Host.Outcome State Fault Refusal :=
  .next (s.raiseFault (.illegal op) .unknownOpcode none)

end Sys2Proof.Machine
end

