-- ==== Sys2Proof/Machine/TextOutput.lean ====
section
/-! DEFINITION. Text output instructions: OUT and PRTSTR (44_output.md). Both only append events to the output trace; the rendering
of events as text is Machine/Render.lean. -/

namespace Sys2Proof.Machine

/-- OUT (R210): `Emit(Dec(x[r]))`. -/
def execOut (r : Byte) (s : State) : Host.Outcome State Fault Refusal := .next (s.emit (.dec (s.x r)))

/-- The bytes of the string at `a`, up to but not with its zero byte, looking at no more than `fuel` bytes; `none` if none of
them is zero. Addresses wrap (R211, D8, log 6); reads are never intercepted (R61). -/
def State.stringAt (s : State) : Nat → Word → Option (List Byte)
  | 0, _ => none
  | fuel + 1, a =>
    if s.readByte a = 0 then some [] else (s.stringAt fuel (a + 1)).map (fun bs => s.readByte a :: bs)

/-- PRTSTR (R211): emits the string's bytes in order. If all 65536 bytes of plain memory are non-zero it never completes
(R212, D17, log 13). -/
def execPrtstr (addr : Word) (s : State) : Host.Outcome State Fault Refusal :=
  match s.stringAt 65536 addr with
  | some bs => .next (s.emitAll (bs.map Event.char))
  | none => .fault .prtstrNeverCompletes

end Sys2Proof.Machine
end

