-- ==== Sys2Proof/Machine/Dispatch.lean ====
section
/-! DEFINITION. The execute phase: one arm per instruction, each a direct call of its meaning. -/

namespace Sys2Proof.Machine

def exec (i : Instr) (s : State) : Host.Outcome State Fault Refusal :=
  match i with
  | .nop => Sys2Proof.Machine.execNop s
  | .ldi r imm8 => Sys2Proof.Machine.execLdi r imm8 s
  | .lui r imm8 => Sys2Proof.Machine.execLui r imm8 s
  | .mov r1 r2 => Sys2Proof.Machine.execMov r1 r2 s
  | .add r1 r2 => Sys2Proof.Machine.execAdd r1 r2 s
  | .sub r1 r2 => Sys2Proof.Machine.execSub r1 r2 s
  | .mul r1 r2 => Sys2Proof.Machine.execMul r1 r2 s
  | .div r1 r2 => Sys2Proof.Machine.execDiv r1 r2 s
  | .mod r1 r2 => Sys2Proof.Machine.execMod r1 r2 s
  | .jmp addr => Sys2Proof.Machine.execJmp addr s
  | .jz addr => Sys2Proof.Machine.execJz addr s
  | .jnz addr => Sys2Proof.Machine.execJnz addr s
  | .jmpr r => Sys2Proof.Machine.execJmpr r s
  | .jzr r => Sys2Proof.Machine.execJzr r s
  | .jnzr r => Sys2Proof.Machine.execJnzr r s
  | .cmp r1 r2 => Sys2Proof.Machine.execCmp r1 r2 s
  | .ldAbs r addr => Sys2Proof.Machine.execLdAbs r addr s
  | .ldReg r1 r2 => Sys2Proof.Machine.execLdReg r1 r2 s
  | .stAbs r addr => Sys2Proof.Machine.execStAbs r addr s
  | .stReg r1 r2 => Sys2Proof.Machine.execStReg r1 r2 s
  | .out r => Sys2Proof.Machine.execOut r s
  | .inc r => Sys2Proof.Machine.execInc r s
  | .prtstr addr => Sys2Proof.Machine.execPrtstr addr s
  | .halt => Sys2Proof.Machine.execHalt s
  | .illegal op => Sys2Proof.Machine.execIllegal op s

end Sys2Proof.Machine
end

