-- ==== Sys2Proof/Machine/Step.lean ====
section
/-! DEFINITION. One step (00_scope.md R11): fetch and decode, execute, force register 0 to zero. A step requested while the CORE is
halted "does nothing at all" (50_interfaces.md R231, D20, log 16). -/

namespace Sys2Proof.Machine

/-- One step request: exactly one instruction, atomically (R231, R232). -/
def step (s : State) : Host.Outcome State Fault Refusal :=
  if s.running then completeStep (exec s.fetchInstr.1 s.fetchInstr.2) else .next s

/-- `s` with the instruction whose table word is `w` stored at `pc`, written as the loader writes (unrouted), and running, so
that the very next step fetches and runs it. A program comes to run from `State.reset` by the loader (R306, log 18);
this function stands for that load. -/
def State.withFetchWord (s : State) (nbits w : Nat) : State :=
  { s.loadBytes s.pc (tableBytes nbits w) with running := true }

end Sys2Proof.Machine
end

