-- ==== Sys2Proof/Machine/HostMoves.lean ====
section
/-! DEFINITION. What the host may do (50_interfaces.md R230 to R235, R245; 70_reset_and_hazards.md R300, R306): "reset; load
memory before the first step; request a step; read state between steps; acknowledge `frame_ready`". Reading needs no
definition: the fields of `State` are there to read. -/

namespace Sys2Proof.Machine

/-- `frame_ack` (R235): `frame_ready <- 0`. -/
def State.ackFrame (s : State) : State := { s with frameReady := false }

/-- Reset of a live machine (R300): the state of R44 to R49, with the machine's own parameters. -/
def State.hostReset (s : State) : State := State.resetWith s.params

/-- A move of the host that changes state, between two steps. -/
inductive HostMove where
  /-- Reset (R300). -/
  | reset
  /-- One write of the loader: `bytes` from address `base` upward (R234). -/
  | load (base : Word) (bytes : List Byte)
  /-- `step_en`: one step request (R231). -/
  | stepEn
  /-- `frame_ack` (R235). -/
  | frameAck
  deriving DecidableEq, Repr

/-- The effect of one host move. -/
def applyMove (m : HostMove) (s : State) : Host.Outcome State Fault Refusal :=
  match m with
  | .reset => .next s.hostReset
  | .load base bytes => .next (s.loadBytes base bytes)
  | .stepEn => step s
  | .frameAck => .next s.ackFrame

/-- The effect of a sequence of host moves, stopping where a step has no successor. -/
def applyMoves : List HostMove → State → Host.Outcome State Fault Refusal
  | [], s => .next s
  | m :: ms, s =>
    match applyMove m s with
    | .next t => applyMoves ms t
    | .fault f => .fault f
    | .refused r => .refused r

/-- The sequences of moves the spec allows (R234, R245): the loader writes only before the first step after a reset.
`started` says whether a step has been requested since the last reset. -/
def legalMoves : Bool → List HostMove → Bool
  | _, [] => true
  | _, .reset :: ms => legalMoves false ms
  | started, .load _ _ :: ms => !started && legalMoves started ms
  | _, .stepEn :: ms => legalMoves true ms
  | started, .frameAck :: ms => legalMoves started ms

/-- `TEXT_BASE`, "conventionally 0x8000" (R7 (d), R306). -/
def defaultTextBase : Word := 0x8000

/-- A launch with the conventional image (R306): after reset, the program from address 0 and the text blob from `textBase`;
where they overlap the text wins (DESIGN CHOICE, log 18). -/
def State.launch (p : Params) (program text : List Byte) (textBase : Word) : State :=
  ((State.resetWith p).loadBytes 0x0000 program).loadBytes textBase text

end Sys2Proof.Machine
end

