-- ==== Sys2Proof/Machine/Render.lean ====
section
/-! DEFINITION. What the host makes of the output trace: the text it renders as (44_output.md R210, 50_interfaces.md R237) and the
calls the display controller receives (R241). No instruction reads any of this. -/

namespace Sys2Proof.Machine

/-- The decimal digits of `n` as ASCII bytes 0x30 to 0x39, most significant first, no leading zero, at most `fuel` of them
(R210; that the digits are ASCII is PRESUMED by the spec itself, log 12). -/
def decDigits : Nat → Nat → List Byte
  | 0, _ => []
  | fuel + 1, n =>
    if n < 10 then [BitVec.ofNat 8 (0x30 + n)]
    else decDigits fuel (n / 10) ++ [BitVec.ofNat 8 (0x30 + n % 10)]

/-- The decimal numeral of a 16-bit value: at most five digits (R210). -/
def decText (v : Word) : List Byte := decDigits 5 v.toNat

/-- The text of one event (R237): the digits of `Dec(v)` followed by `OUT_SUFFIX`, the byte of `Char(b)`, nothing for a
`DisplayWrite`. -/
def Event.text (suffix : List Byte) : Event → List Byte
  | .dec v => decText v ++ suffix
  | .char b => [b]
  | .displayWrite _ _ => []

/-- The text the machine has printed (R237). -/
def State.text (s : State) : List Byte := s.trace.flatMap (Event.text s.params.outSuffix)

/-- The call of the display controller's `write` an event makes, if any: the cursor, zero-extended, and the byte (R241). -/
def Event.displayCall : Event → Option (Nat × Byte)
  | .dec _ => none
  | .char _ => none
  | .displayWrite a b => some (a.toNat, b)

/-- The calls the display controller has received, oldest first (R240, R241). -/
def State.displayCalls (s : State) : List (Nat × Byte) := s.trace.filterMap Event.displayCall

end Sys2Proof.Machine
end

