-- ==== Sys2Proof/Safety.lean ====
section
/-! DEFINITION. The terms claims are stated in: how a run ended, what a step leaves unchanged, the table of fault conditions
(60_exceptions.md R260), and the invariant of the machine. Written from the spec's tables in natural-number arithmetic,
not from the meanings. -/

namespace Sys2Proof.Machine

/-! ## How a run ended (50_interfaces.md R233) -/

/-- Halted by HALT: not running, cause 0. -/
def State.cleanHalt (s : State) : Bool := !s.running && s.fault.cause == .none

/-- Halted by a fatal fault: not running, another cause. -/
def State.faultHalt (s : State) : Bool := !s.running && s.fault.cause != .none

/-! ## What is unchanged from `s` to `t` -/

/-- A register operand byte that names a writable register: 1 to 15 (R23). -/
abbrev NamesRegister (b : Byte) : Prop := 1 ≤ b.toNat ∧ b.toNat ≤ 15

/-- Every register is unchanged. -/
abbrev KeepsRegs (s t : State) : Prop := ∀ i : Fin 16, t.regs[i] = s.regs[i]

/-- Every register is unchanged except the one the operand byte `b` names; register 0, and every register when `b` is 0 or at
least 16, is unchanged too. -/
abbrev KeepsRegsBut (b : Byte) (s t : State) : Prop :=
  ∀ i : Fin 16, i.val ≠ b.toNat ∨ i.val = 0 → t.regs[i] = s.regs[i]

/-- Every byte of plain memory is unchanged. -/
abbrev KeepsMem (s t : State) : Prop := ∀ a : Word, t.readByte a = s.readByte a

/-- Every byte of VRAM is unchanged. -/
abbrev KeepsVram (s t : State) : Prop := ∀ a : Word, t.vramByte a = s.vramByte a

/-- The VRAM, its cursor and the frame-ready flag are unchanged. -/
abbrev KeepsDisplay (s t : State) : Prop :=
  KeepsVram s t ∧ t.vramCursor = s.vramCursor ∧ t.frameReady = s.frameReady

/-- The running flag and the fault record are unchanged. -/
abbrev KeepsControl (s t : State) : Prop := t.running = s.running ∧ t.fault = s.fault

/-- The frame of an instruction whose whole effect is on the register operand byte `b` and on `Z`. -/
abbrev ResultFrame (b : Byte) (s t : State) : Prop :=
  KeepsRegsBut b s t ∧ t.pc = s.pc ∧ KeepsControl s t ∧ KeepsMem s t ∧ KeepsDisplay s t ∧ t.trace = s.trace ∧
    t.params = s.params

/-- The frame of an instruction whose whole effect is on `pc`. -/
abbrev JumpFrame (s t : State) : Prop :=
  KeepsRegs s t ∧ t.z = s.z ∧ KeepsControl s t ∧ KeepsMem s t ∧ KeepsDisplay s t ∧ t.trace = s.trace ∧
    t.params = s.params

/-- The frame of an instruction whose whole effect is on plain memory, a port or the output trace. -/
abbrev CoreFrame (s t : State) : Prop :=
  KeepsRegs s t ∧ t.z = s.z ∧ t.pc = s.pc ∧ KeepsControl s t ∧ t.params = s.params

/-! ## Results and stores -/

/-- `i` is a store of the word `v` to the address `a`: ST absolute with `x[r] = v` (R192), or ST register with `x[r2] = a`
and `x[r1] = v` (R193). -/
def StoreForm (i : Instr) (s : State) (a v : Word) : Prop :=
  (∃ r, i = .stAbs r a ∧ v = s.x r) ∨ (∃ r1 r2, i = .stReg r1 r2 ∧ a = s.x r2 ∧ v = s.x r1)

/-- The byte plain memory holds at `b` after a store of `v` to the plain address `a`: low byte at `a`, high byte at `a + 1` (R68),
every other byte as in `s`. -/
def byteAfterStore (s : State) (a v b : Word) : Byte :=
  if b = a then loByte v else if b = a + 1 then hiByte v else s.readByte b

/-- The register operand byte an instruction presents its result to (10_state.md R24). -/
def destOf : Instr → Option Byte
  | .ldi r _ | .lui r _ | .inc r => some r
  | .mov r1 _ | .add r1 _ | .sub r1 _ | .mul r1 _ | .div r1 _ | .mod r1 _ => some r1
  | .ldAbs r _ => some r
  | .ldReg r1 _ => some r1
  | .nop | .halt | .illegal _ => none
  | .jmp _ | .jz _ | .jnz _ | .jmpr _ | .jzr _ | .jnzr _ => none
  | .cmp _ _ | .stAbs _ _ | .stReg _ _ | .out _ | .prtstr _ => none

/-- The address a taken jump assigns to `pc` (10_state.md R27, 42_control_transfer.md R170 to R175); `none` for a jump not
taken and for every other instruction. -/
def jumpTarget (s : State) : Instr → Option Word
  | .jmp addr => some addr
  | .jz addr => if s.z = true then some addr else none
  | .jnz addr => if s.z = false then some addr else none
  | .jmpr r => some (s.x r)
  | .jzr r => if s.z = true then some (s.x r) else none
  | .jnzr r => if s.z = false then some (s.x r) else none
  | .nop | .halt | .illegal _ => none
  | .ldi _ _ | .lui _ _ | .inc _ | .out _ | .prtstr _ => none
  | .mov _ _ | .add _ _ | .sub _ _ | .mul _ _ | .div _ _ | .mod _ _ | .cmp _ _ => none
  | .ldAbs _ _ | .ldReg _ _ | .stAbs _ _ | .stReg _ _ => none

/-- The instructions that never change `Z` (10_state.md R32). -/
def keepsZ : Instr → Bool
  | .nop | .jmp _ | .jz _ | .jnz _ | .jmpr _ | .jzr _ | .jnzr _ => true
  | .stAbs _ _ | .stReg _ _ | .out _ | .prtstr _ | .halt | .illegal _ => true
  | .ldi _ _ | .lui _ _ | .inc _ | .cmp _ _ => false
  | .mov _ _ | .add _ _ | .sub _ _ | .mul _ _ | .div _ _ | .mod _ _ => false
  | .ldAbs _ _ | .ldReg _ _ => false

/-- The instructions that may append to the output trace (50_interfaces.md R236). -/
def mayEmit : Instr → Bool
  | .out _ | .prtstr _ | .stAbs _ _ | .stReg _ _ => true
  | .nop | .jmp _ | .jz _ | .jnz _ | .jmpr _ | .jzr _ | .jnzr _ | .halt | .illegal _ => false
  | .ldi _ _ | .lui _ _ | .inc _ | .cmp _ _ => false
  | .mov _ _ | .add _ _ | .sub _ _ | .mul _ _ | .div _ _ | .mod _ _ => false
  | .ldAbs _ _ | .ldReg _ _ => false

/-- The length of an instruction by its opcode byte, as 30_encoding.md R95 lists it: 2 bytes for 0x0A, 0x0B, 0x14 to 0x16; 4 for
0x08 and 0x09; 3 for 0x01 to 0x07 and 0x0C to 0x13; 1 for 0x00, 0xFF and the undefined opcodes. -/
def lengthByOpcode (op : Byte) : Nat :=
  if op = 0x0A ∨ op = 0x0B ∨ op = 0x14 ∨ op = 0x15 ∨ op = 0x16 then 2
  else if op = 0x08 ∨ op = 0x09 then 4
  else if (0x01 ≤ op.toNat ∧ op.toNat ≤ 0x07) ∨ (0x0C ≤ op.toNat ∧ op.toNat ≤ 0x13) then 3
  else 1

/-! ## The closed list of fatal faults (60_exceptions.md R260) -/

/-- The fatal fault the instruction raises in state `s`, by the table of R260; `none` where it raises none. -/
def faultCauseOf (s : State) : Instr → Cause
  | .illegal _ => .unknownOpcode
  | .add r1 r2 => if (s.x r1).toNat + (s.x r2).toNat > 65535 then .addOverflow else .none
  | .sub r1 r2 => if (s.x r1).toNat < (s.x r2).toNat then .subUnderflow else .none
  | .mul r1 r2 => if (s.x r1).toNat * (s.x r2).toNat > 65535 then .mulOverflow else .none
  | .div _ r2 => if (s.x r2).toNat = 0 then .divByZero else .none
  | .mod _ r2 => if (s.x r2).toNat = 0 then .modByZero else .none
  | .nop | .halt | .jmp _ | .jz _ | .jnz _ | .jmpr _ | .jzr _ | .jnzr _ => .none
  | .ldi _ _ | .lui _ _ | .mov _ _ | .inc _ | .cmp _ _ => .none
  | .ldAbs _ _ | .ldReg _ _ | .stAbs _ _ | .stReg _ _ | .out _ | .prtstr _ => .none

/-- What the fault record holds of the faulting instruction (R261), by its opcode number and length in R96: the opcode byte's
address is 1 below `pc` for an unknown opcode and 3 below for the five arithmetic instructions (R262). -/
def faultInfoOf (s : State) : Instr → Option FaultInfo
  | .illegal op => some ⟨s.pc - 1, op, none⟩
  | .add r1 r2 => some ⟨s.pc - 3, 0x03, some ⟨r1, r2, s.x r1, s.x r2⟩⟩
  | .sub r1 r2 => some ⟨s.pc - 3, 0x04, some ⟨r1, r2, s.x r1, s.x r2⟩⟩
  | .mul r1 r2 => some ⟨s.pc - 3, 0x0E, some ⟨r1, r2, s.x r1, s.x r2⟩⟩
  | .div r1 r2 => some ⟨s.pc - 3, 0x0F, some ⟨r1, r2, s.x r1, s.x r2⟩⟩
  | .mod r1 r2 => some ⟨s.pc - 3, 0x10, some ⟨r1, r2, s.x r1, s.x r2⟩⟩
  | .nop | .halt | .jmp _ | .jz _ | .jnz _ | .jmpr _ | .jzr _ | .jnzr _ => none
  | .ldi _ _ | .lui _ _ | .mov _ _ | .inc _ | .cmp _ _ => none
  | .ldAbs _ _ | .ldReg _ _ | .stAbs _ _ | .stReg _ _ | .out _ | .prtstr _ => none

/-- A fault record some fault can have written (R261): empty with cause 0, else the opcode byte of the instruction that raises
the cause, and for an arithmetic fault operand values that meet its condition. -/
def FaultRecord.wf (f : FaultRecord) : Bool :=
  match f.cause, f.info with
  | .none, none => true
  | .unknownOpcode, some ⟨_, op, none⟩ => 0x17 ≤ op.toNat && op.toNat ≤ 0xFE
  | .addOverflow, some ⟨_, op, some o⟩ => op == 0x03 && decide (65535 < o.a.toNat + o.b.toNat)
  | .subUnderflow, some ⟨_, op, some o⟩ => op == 0x04 && decide (o.a.toNat < o.b.toNat)
  | .mulOverflow, some ⟨_, op, some o⟩ => op == 0x0E && decide (65535 < o.a.toNat * o.b.toNat)
  | .divByZero, some ⟨_, op, some o⟩ => op == 0x0F && o.b == 0
  | .modByZero, some ⟨_, op, some o⟩ => op == 0x10 && o.b == 0
  | _, _ => false

/-! ## The invariant of the machine -/

/-- What holds at every step boundary: both arrays in canonical form, register 0 zero (R21), the ports pairwise distinct
(R7), the fault record one that R261 allows, and no fault recorded while the machine runs (R265). -/
abbrev State.Inv (s : State) : Prop :=
  Memory.wf s.mem ∧ Memory.wf s.vram ∧ s.regs[0] = 0 ∧ s.params.PortsDistinct ∧ s.fault.wf = true ∧
    (s.running = true → s.fault.cause = .none)

/-! ## What a program can see (10_state.md R41) -/

/-- The two states agree on everything an instruction can read: registers, `pc`, `Z`, plain memory and the parameters. They may
differ in all of the hidden state: `vram_cursor`, `vram`, `frame_ready`, `running`, `fault`, and the output trace. -/
abbrev SeesSame (s t : State) : Prop :=
  KeepsRegs s t ∧ t.pc = s.pc ∧ t.z = s.z ∧ KeepsMem s t ∧ t.params = s.params

end Sys2Proof.Machine
end

