-- ==== Sys2Proof/Certificates/Slice0/Obligations.lean ====
section
/-! DEFINITION. The statements of this model, for the provers. Every one of them is about every state, so about every value of the
open parameters `params` (00_scope.md R7) and every content of memory. "The spec's decision D<n>" marks a clause that
rests on a choice the spec itself made where its source is silent (92_eei_decisions.md). -/

open Sys2Proof Sys2Proof.Machine

/-! ## Encoding (30_encoding.md) -/

/-- Decoding the bytes of a well-formed instruction gives it back, with every operand, whatever bytes follow (30_encoding.md
sections 1 and 2). -/
def Obligations.DecodeOfEncodeGivesTheInstruction : Prop :=
  ∀ (i : Instr) (tail : List Byte), i.wellFormed = true → decode (encode i ++ tail) = .ok (i, tail)

/-- Whatever decodes is the encoding of the instruction it decodes to, followed by the bytes left over: no two byte sequences
stand for one instruction and no byte is dropped (30_encoding.md sections 1 and 2). -/
def Obligations.DecodeConsumesExactlyTheEncoding : Prop :=
  ∀ (bs : List Byte) (i : Instr) (rest : List Byte),
    decode bs = .ok (i, rest) → i.wellFormed = true ∧ bs = encode i ++ rest

/-- The opcode byte alone tells the length (R95), every operand byte is accepted (R99, derived), and decoding fails only where the
bytes end too early; the opcode byte and the length that a fault record and `pc` are computed from are those of the encoding. -/
def Obligations.OpcodeByteAloneFixesTheLength : Prop :=
  ∀ (op : Byte) (bs : List Byte),
    (lengthByOpcode op ≤ bs.length + 1 →
      ∃ i, decode (op :: bs) = .ok (i, bs.drop (lengthByOpcode op - 1)) ∧ (encode i).length = lengthByOpcode op ∧
        (encode i).head? = some op ∧ opcodeOf i = op ∧ instrLength i = lengthByOpcode op) ∧
    (bs.length + 1 < lengthByOpcode op → decode (op :: bs) = .error (.truncated op))

/-- R103: the source's example program, byte by byte: five instructions of lengths 3, 3, 3, 2, 1. -/
def Obligations.ExampleProgramDecodes : Prop :=
  decode [0x01, 0x01, 0x05, 0x01, 0x02, 0x03, 0x03, 0x01, 0x02, 0x0A, 0x01, 0xFF] =
      .ok (.ldi 1 5, [0x01, 0x02, 0x03, 0x03, 0x01, 0x02, 0x0A, 0x01, 0xFF]) ∧
    decode [0x01, 0x02, 0x03, 0x03, 0x01, 0x02, 0x0A, 0x01, 0xFF] = .ok (.ldi 2 3, [0x03, 0x01, 0x02, 0x0A, 0x01, 0xFF]) ∧
    decode [0x03, 0x01, 0x02, 0x0A, 0x01, 0xFF] = .ok (.add 1 2, [0x0A, 0x01, 0xFF]) ∧
    decode [0x0A, 0x01, 0xFF] = .ok (.out 1, [0xFF]) ∧
    decode [0xFF] = .ok (.halt, [])

/-- R97: the bytes 0x17 to 0xFE, and no others, decode to an illegal instruction, of one byte, and executing one raises
UnknownOpcode. -/
def Obligations.UndefinedOpcodesRaiseUnknownOpcode : Prop :=
  ∀ (op : Byte),
    (∀ rest : List Byte,
      (0x17 ≤ op.toNat ∧ op.toNat ≤ 0xFE) ↔ decode (op :: rest) = .ok (.illegal op, rest)) ∧
    (0x17 ≤ op.toNat ∧ op.toNat ≤ 0xFE → ∀ s : State,
      ∃ t, exec (.illegal op) s = .next t ∧ t.fault.cause = .unknownOpcode ∧ t.running = false)

/-! ## The step (00_scope.md R11) -/

/-- R11: a step of a running CORE fetches the instruction the bytes at `pc` decode to, executes it with `pc` already past it, and
forces register 0 to zero; it ends where the execution has no successor. -/
def Obligations.StepRunsTheDecodedInstruction : Prop :=
  ∀ (s : State) (i : Instr) (rest : List Byte),
    s.running = true → decode (s.bytesAt s.pc 4) = .ok (i, rest) →
    (∀ t, exec i { s with pc := s.pc + BitVec.ofNat 16 (encode i).length } = .next t →
      step s = .next { t with regs := t.regs.set 0 0 }) ∧
    (∀ f, exec i { s with pc := s.pc + BitVec.ofNat 16 (encode i).length } = .fault f → step s = .fault f) ∧
    (∀ r, exec i { s with pc := s.pc + BitVec.ofNat 16 (encode i).length } ≠ .refused r)

/-- R231 (the spec's decisions D1, D20 and D17; the name of the hang is the model's, log 13): a step never refuses, and fails
to answer a next state only where a running CORE meets a PRTSTR and plain memory holds no zero byte. -/
def Obligations.StepAlwaysAnswersButForPrtstrHang : Prop :=
  ∀ s : State, (∃ t, step s = .next t) ∨
    (s.running = true ∧ s.readByte s.pc = 0x0D ∧ (∀ a : Word, s.readByte a ≠ 0) ∧
      step s = .fault .prtstrNeverCompletes)

/-- R27: after a step, `pc` is the target of the jump if the instruction is a taken jump, and else the address of the byte after
the instruction; and no instruction reads `pc` into a register, the flag, memory or the trace. -/
def Obligations.PcIsSequentialButForTakenJumps : Prop :=
  (∀ (s t : State) (i : Instr) (rest : List Byte),
    s.running = true → decode (s.bytesAt s.pc 4) = .ok (i, rest) → step s = .next t →
    t.pc = match jumpTarget s i with
      | some w => w
      | none => s.pc + BitVec.ofNat 16 (encode i).length) ∧
  (∀ (i : Instr) (s t : State) (p : Word), exec i s = .next t →
    ∃ u, exec i { s with pc := p } = .next u ∧ u.regs = t.regs ∧ u.z = t.z ∧ u.mem = t.mem ∧ u.vram = t.vram ∧
      u.vramCursor = t.vramCursor ∧ u.frameReady = t.frameReady ∧ u.trace = t.trace ∧ u.running = t.running)

/-- R73 (derived): code that a store wrote is what the next fetch there runs. After a store of `v` to `a`, not a port, the
fetch at ANY `p` sees the two stored bytes where its bytes fall on `a` and `a + 1` and the old ones elsewhere: if those bytes
decode to `j`, of one byte or of four, wholly or partly stored, a step with `pc` at `p` runs `j`. That `a + 1` and `pc` wrap
at 0xFFFF is the spec's decisions D8 and D7; that `a + 1` may be a port, and that a fetch at a port reads plain memory, are
D28 and D29. -/
def Obligations.StoredCodeIsExecuted : Prop :=
  ∀ (i j : Instr) (s t : State) (a v p : Word) (rest : List Byte),
    StoreForm i s a v → s.isPort a = false → s.running = true → exec i s = .next t →
    decode [byteAfterStore s a v p, byteAfterStore s a v (p + 1), byteAfterStore s a v (p + 2), byteAfterStore s a v (p + 3)] =
      .ok (j, rest) →
    step { t with pc := p } = completeStep (exec j { t with pc := p + BitVec.ofNat 16 (encode j).length })

/-! ## Reset and the invariant -/

/-- R44 to R49: every field at reset. `running` and the zeroed memory are the source's; the others are the spec's decisions
D11 to D14. The parameters are left open: any `p`. R300: the host's move reset, on any state, gives that state again, with
the machine's own parameters (that reset may be applied to a live machine is D1). -/
def Obligations.ResetLeavesTheSpecifiedState : Prop :=
  ∀ p : Params,
    (State.resetWith p).running = true ∧ (∀ a : Word, (State.resetWith p).readByte a = 0x00) ∧
    (State.resetWith p).pc = 0x0000 ∧ (∀ i : Fin 16, (State.resetWith p).regs[i] = 0x0000) ∧
    (State.resetWith p).z = false ∧ (State.resetWith p).vramCursor = 0x0000 ∧
    (∀ a : Word, (State.resetWith p).vramByte a = 0x00) ∧ (State.resetWith p).frameReady = false ∧
    (State.resetWith p).fault = { cause := .none, info := none } ∧ (State.resetWith p).trace = [] ∧
    (State.resetWith p).params = p ∧ (∃ q, State.reset = State.resetWith q) ∧
    ∀ s : State, applyMove .reset s = .next (State.resetWith s.params)

/-- The invariant of the machine holds at reset, for every admissible choice of the ports, and for the host's reset state, whose
ports (log 1, the model's choice) are an admissible choice. -/
def Obligations.ResetSatisfiesTheInvariant : Prop :=
  (∀ p : Params, p.PortsDistinct → (State.resetWith p).Inv) ∧ State.reset.Inv

/-- Every step keeps the invariant: canonical memories, register 0 zero (R21), distinct ports (R7), a fault record R261
allows, and no fault recorded in a running CORE (R265). -/
def Obligations.StepKeepsTheInvariant : Prop :=
  ∀ s t : State, s.Inv → step s = .next t → t.Inv

/-- The invariant holds after every sequence of host moves: resets, loads, steps and acknowledges. -/
def Obligations.HostRunsKeepTheInvariant : Prop :=
  ∀ (ms : List HostMove) (s t : State), s.Inv → applyMoves ms s = .next t → t.Inv

/-- Two byte arrays in canonical form with the same bytes are the same list: equal memories are equal data. -/
def Obligations.CanonicalMemoriesAreExtensional : Prop :=
  ∀ m n : Memory, Memory.wf m → Memory.wf n → (∀ a : Word, Memory.read m a.toNat = Memory.read n a.toNat) → m = n

/-! ## Registers and the flag (10_state.md) -/

/-- R21: register 0 is zero after every executed instruction, one that halts or faults included; it always reads zero, and a write
to it is discarded. -/
def Obligations.RegisterZeroIsZeroAfterEveryInstruction : Prop :=
  (∀ s t : State, s.running = true → step s = .next t → t.regs[0] = 0 ∧ t.x 0 = 0) ∧
  (∀ s : State, s.x 0 = 0) ∧ (∀ (s : State) (v : Word), s.setX 0 v = s)

/-- R22: the read port: 0 for byte 0, the stored word for 1 to 15, 0 for 16 and above (the last is the spec's decision D3). -/
def Obligations.RegisterReadPort : Prop :=
  ∀ (s : State) (b : Byte),
    (b = 0 → s.x b = 0) ∧
    (∀ i : Fin 16, 1 ≤ i.val → b.toNat = i.val → s.x b = s.regs[i]) ∧
    (16 ≤ b.toNat → s.x b = 0)

/-- R23: the write port performs the write for 1 to 15 and does nothing otherwise; and an instruction writes at most one register,
the one its first register operand names. -/
def Obligations.RegisterWritePort : Prop :=
  (∀ (s : State) (b c : Byte) (v : Word),
    (s.setX b v).x c = if c = b ∧ NamesRegister b then v else s.x c) ∧
  (∀ (s : State) (b : Byte) (v : Word), (¬NamesRegister b → s.setX b v = s) ∧
    ∃ rs, s.setX b v = { s with regs := rs } ∧ ∀ i : Fin 16, i.val ≠ b.toNat → rs[i] = s.regs[i]) ∧
  (∀ (i : Instr) (s t : State), exec i s = .next t →
    ∀ k : Fin 16, k.val = 0 ∨ destOf i ≠ some (BitVec.ofNat 8 k.val) → t.regs[k] = s.regs[k])

/-- R32: NOP, the jumps, the stores, OUT, PRTSTR, HALT and an unknown opcode never change `Z`. -/
def Obligations.InstructionsThatNeverChangeZ : Prop :=
  ∀ (i : Instr) (s t : State), keepsZ i = true → exec i s = .next t → t.z = s.z

/-! ## Halting and faults (10_state.md R33, 60_exceptions.md) -/

/-- R33: the CORE starts running; a step clears `running` exactly when its instruction is HALT or raises a fatal fault; no
host move but reset sets it again; and no instruction reads it. -/
def Obligations.RunningClearedOnlyByHaltOrFault : Prop :=
  (∀ p : Params, (State.resetWith p).running = true) ∧
  (∀ (s t : State) (i : Instr) (rest : List Byte),
    s.running = true → decode (s.bytesAt s.pc 4) = .ok (i, rest) → step s = .next t →
    (t.running = false ↔ i = .halt ∨ faultCauseOf s i ≠ .none)) ∧
  (∀ (m : HostMove) (s t : State),
    s.running = false → applyMove m s = .next t → t.running = true → m = .reset) ∧
  (∀ (i : Instr) (s t : State) (b : Bool), exec i s = .next t →
    ∃ u, exec i { s with running := b } = .next u ∧ u.regs = t.regs ∧ u.pc = t.pc ∧ u.z = t.z ∧ u.mem = t.mem ∧
      u.vram = t.vram ∧ u.vramCursor = t.vramCursor ∧ u.frameReady = t.frameReady ∧ u.trace = t.trace ∧
      u.fault = t.fault)

/-- R260: the six conditions of the table raise their causes and halt the CORE, and no other instruction and no other condition
records a fault. -/
def Obligations.FatalFaultListIsClosed : Prop :=
  ∀ (i : Instr) (s : State),
    (faultCauseOf s i ≠ .none →
      ∃ t, exec i s = .next t ∧ t.fault.cause = faultCauseOf s i ∧ t.running = false) ∧
    (faultCauseOf s i = .none → ∀ t, exec i s = .next t → t.fault = s.fault)

/-- R261, R262, R263 (the spec's decisions D5, D6, D15, D27): ADD, SUB, MUL, DIV, MOD and an unknown opcode, on their fault
condition and whatever the destination, record the cause, the opcode's address and byte and the operands, clear `running`,
and change nothing else: no register, no flag, no byte, and `pc` stays past the instruction. -/
def Obligations.FaultEntryChangesOnlyFaultAndRunning : Prop :=
  ∀ (i : Instr) (s : State), faultCauseOf s i ≠ .none →
    ∃ t, exec i s = .next t ∧ t.running = false ∧
      t.fault = { cause := faultCauseOf s i, info := faultInfoOf s i } ∧
      KeepsRegs s t ∧ t.z = s.z ∧ t.pc = s.pc ∧ KeepsMem s t ∧ KeepsDisplay s t ∧ t.trace = s.trace ∧ t.params = s.params

/-- R265: after a fault the CORE is halted, and whatever the host does short of a reset, it stays halted with the same fault
record; a reset clears both. -/
def Obligations.FaultIsFinalUntilReset : Prop :=
  ∀ s : State, s.Inv → s.fault.cause ≠ .none →
    (∀ (ms : List HostMove), (∀ m ∈ ms, m ≠ .reset) →
      ∃ t, applyMoves ms s = .next t ∧ t.running = false ∧ t.fault = s.fault ∧ t.pc = s.pc ∧ KeepsRegs s t ∧ t.z = s.z) ∧
    (∃ t, applyMove .reset s = .next t ∧ t.running = true ∧ t.fault = { cause := .none, info := none })

/-- R221: HALT is the byte FF; it clears `running`, leaves `pc` past it and everything else as it was, so a clean halt has no
fault; and no later step does anything. -/
def Obligations.HaltStopsTheCoreForGood : Prop :=
  encode .halt = [0xFF] ∧
  (∀ s : State, ∃ t, exec .halt s = .next t ∧ t.running = false ∧ KeepsRegs s t ∧ t.z = s.z ∧ t.pc = s.pc ∧
    t.fault = s.fault ∧ KeepsMem s t ∧ KeepsDisplay s t ∧ t.trace = s.trace ∧ t.params = s.params) ∧
  (∀ s : State, s.Inv → s.running = true → s.readByte s.pc = 0xFF →
    ∃ t, step s = .next t ∧ t.pc = s.pc + 1 ∧ t.fault.cause = .none ∧ t.cleanHalt = true ∧ KeepsRegs s t ∧
      ∀ n : Nat, applyMoves (List.replicate n .stepEn) t = .next t)

/-- R220: NOP changes nothing; the step of a NOP advances `pc` by 1. -/
def Obligations.NopChangesNothing : Prop :=
  encode .nop = [0x00] ∧ (∀ s : State, ∃ t, exec .nop s = .next t ∧ t = s) ∧
  (∀ s : State, s.Inv → s.running = true → s.readByte s.pc = 0x00 → step s = .next { s with pc := s.pc + 1 })

/-! ## Immediate and move instructions (40_move_immediate.md) -/

/-- R120, for every register byte (the flag of a discarded write is the spec's decision D4): LDI, the bytes 01 r imm8,
completes; a named register holds the zero-extended immediate, `Z` says whether it is zero, nothing else changes. -/
def Obligations.LdiLoadsTheZeroExtendedImmediate : Prop :=
  ∀ (r imm8 : Byte), encode (.ldi r imm8) = [0x01, r, imm8] ∧ ∀ s : State, ∃ t, exec (.ldi r imm8) s = .next t ∧
    (NamesRegister r → (t.x r).toNat = imm8.toNat) ∧ (t.z = true ↔ imm8.toNat = 0) ∧ ResultFrame r s t

/-- R121, for every register byte (D3, D4 for a byte that names no register): LUI, the bytes 13 r imm8, completes; the
immediate becomes the high byte, the low byte is kept. -/
def Obligations.LuiReplacesTheHighByte : Prop :=
  ∀ (r imm8 : Byte), encode (.lui r imm8) = [0x13, r, imm8] ∧ ∀ s : State, ∃ t, exec (.lui r imm8) s = .next t ∧
    (NamesRegister r → (t.x r).toNat = 256 * imm8.toNat + (s.x r).toNat % 256) ∧
    (t.z = true ↔ imm8.toNat = 0 ∧ (s.x r).toNat % 256 = 0) ∧ ResultFrame r s t

/-- R122, for every pair of register bytes (D3, D4): MOV, the bytes 02 r1 r2, completes and copies. -/
def Obligations.MovCopiesTheSource : Prop :=
  ∀ (r1 r2 : Byte), encode (.mov r1 r2) = [0x02, r1, r2] ∧ ∀ s : State, ∃ t, exec (.mov r1 r2) s = .next t ∧
    (NamesRegister r1 → t.x r1 = s.x r2) ∧ (t.z = true ↔ (s.x r2).toNat = 0) ∧ ResultFrame r1 s t

/-! ## Arithmetic (41_arithmetic.md) -/

/-- R140 (D4 for the flag of a discarded write): where the sum fits 16 bits, ADD, the bytes 03 r1 r2, completes with the
exact sum. -/
def Obligations.AddGivesTheExactSum : Prop :=
  ∀ (r1 r2 : Byte), encode (.add r1 r2) = [0x03, r1, r2] ∧ ∀ s : State, (s.x r1).toNat + (s.x r2).toNat ≤ 65535 →
    ∃ t, exec (.add r1 r2) s = .next t ∧
      (NamesRegister r1 → (t.x r1).toNat = (s.x r1).toNat + (s.x r2).toNat) ∧
      (t.z = true ↔ (s.x r1).toNat + (s.x r2).toNat = 0) ∧ ResultFrame r1 s t

/-- R141 (D4): where the minuend is not below the subtrahend, SUB, the bytes 04 r1 r2, completes with the exact difference. -/
def Obligations.SubGivesTheExactDifference : Prop :=
  ∀ (r1 r2 : Byte), encode (.sub r1 r2) = [0x04, r1, r2] ∧ ∀ s : State, (s.x r2).toNat ≤ (s.x r1).toNat →
    ∃ t, exec (.sub r1 r2) s = .next t ∧
      (NamesRegister r1 → (t.x r1).toNat + (s.x r2).toNat = (s.x r1).toNat) ∧
      (t.z = true ↔ (s.x r1).toNat = (s.x r2).toNat) ∧ ResultFrame r1 s t

/-- R142 (D4): where the product fits 16 bits, MUL, the bytes 0E r1 r2, completes with the exact product. -/
def Obligations.MulGivesTheExactProduct : Prop :=
  ∀ (r1 r2 : Byte), encode (.mul r1 r2) = [0x0E, r1, r2] ∧ ∀ s : State, (s.x r1).toNat * (s.x r2).toNat ≤ 65535 →
    ∃ t, exec (.mul r1 r2) s = .next t ∧
      (NamesRegister r1 → (t.x r1).toNat = (s.x r1).toNat * (s.x r2).toNat) ∧
      (t.z = true ↔ (s.x r1).toNat = 0 ∨ (s.x r2).toNat = 0) ∧ ResultFrame r1 s t

/-- R143 (D4): where the divisor is not zero, DIV, the bytes 0F r1 r2, completes with the truncated quotient `q`: `q * b ≤ a
< (q + 1) * b`. -/
def Obligations.DivGivesTheTruncatedQuotient : Prop :=
  ∀ (r1 r2 : Byte), encode (.div r1 r2) = [0x0F, r1, r2] ∧ ∀ s : State, 0 < (s.x r2).toNat →
    ∃ t, exec (.div r1 r2) s = .next t ∧
      (NamesRegister r1 → (t.x r1).toNat * (s.x r2).toNat ≤ (s.x r1).toNat ∧
        (s.x r1).toNat < ((t.x r1).toNat + 1) * (s.x r2).toNat) ∧
      (t.z = true ↔ (s.x r1).toNat < (s.x r2).toNat) ∧ ResultFrame r1 s t

/-- R144 (D4): where the divisor is not zero, MOD, the bytes 10 r1 r2, completes with the remainder, below the divisor; with
the quotient DIV gives on the same state, `a = b * (a DIV b) + (a MOD b)`. -/
def Obligations.ModGivesTheRemainderOfDiv : Prop :=
  ∀ (r1 r2 : Byte), encode (.mod r1 r2) = [0x10, r1, r2] ∧ ∀ s : State, 0 < (s.x r2).toNat →
    ∃ t u, exec (.mod r1 r2) s = .next t ∧ exec (.div r1 r2) s = .next u ∧
      (NamesRegister r1 → (t.x r1).toNat < (s.x r2).toNat ∧
        (s.x r1).toNat = (s.x r2).toNat * (u.x r1).toNat + (t.x r1).toNat) ∧
      (t.z = true ↔ (s.x r2).toNat ∣ (s.x r1).toNat) ∧ ResultFrame r1 s t

/-- R145 (the spec's decisions D9 for the wrap, D3 and D4): INC, the bytes 0B r, completes always, wraps at 0xFFFF, and sets
`Z` for that input only. -/
def Obligations.IncWrapsAndNeverFaults : Prop :=
  ∀ (r : Byte), encode (.inc r) = [0x0B, r] ∧ ∀ s : State, ∃ t, exec (.inc r) s = .next t ∧
    (NamesRegister r → (t.x r).toNat = if (s.x r).toNat = 65535 then 0 else (s.x r).toNat + 1) ∧
    (t.z = true ↔ (s.x r).toNat = 65535) ∧ ResultFrame r s t

/-- R146: CMP, the bytes 07 r1 r2, writes `Z` from the equality of the two values, and nothing else. -/
def Obligations.CmpWritesOnlyZ : Prop :=
  ∀ (r1 r2 : Byte), encode (.cmp r1 r2) = [0x07, r1, r2] ∧
    ∀ s : State, ∃ t, exec (.cmp r1 r2) s = .next t ∧ (t.z = true ↔ (s.x r1).toNat = (s.x r2).toNat) ∧
      KeepsRegs s t ∧ t.pc = s.pc ∧ KeepsControl s t ∧ KeepsMem s t ∧ KeepsDisplay s t ∧ t.trace = s.trace ∧
      t.params = s.params

/-- R150: where the sum fits, ADD r, r2 then SUB r, r2 both complete; for a writable r and another register byte they restore
r, with `Z` from the original value; for a writable r and the same byte they leave 0. Where r names no writable register
nothing is written, and the SUB faults if the second value is not 0 (R150 does not speak of that case; the spec's decisions
D3 and D5). -/
def Obligations.AddThenSubRestores : Prop :=
  ∀ (r r2 : Byte) (s : State), (s.x r).toNat + (s.x r2).toNat ≤ 65535 →
    ∃ t u, exec (.add r r2) s = .next t ∧ exec (.sub r r2) t = .next u ∧
      (NamesRegister r → r ≠ r2 → u.x r = s.x r ∧ (u.z = true ↔ (s.x r).toNat = 0) ∧ u.fault = s.fault) ∧
      (NamesRegister r → r = r2 → (t.x r).toNat = 2 * (s.x r).toNat ∧ u.x r = 0 ∧ u.z = true ∧ u.fault = s.fault) ∧
      (¬NamesRegister r → KeepsRegs s u ∧
        (0 < (s.x r2).toNat → u.fault.cause = .subUnderflow ∧ u.running = false) ∧
        ((s.x r2).toNat = 0 → u.z = true ∧ u.fault = s.fault))

/-! ## Control transfer (42_control_transfer.md) -/

/-- R170: JMP, the bytes 05 lo hi, sets `pc` to the address, any address, and changes nothing else. -/
def Obligations.JmpSetsPc : Prop :=
  ∀ (lo hi : Byte), encode (.jmp (joinBytes hi lo)) = [0x05, lo, hi] ∧
    ∀ s : State, ∃ t, exec (.jmp (joinBytes hi lo)) s = .next t ∧ t.pc.toNat = lo.toNat + 256 * hi.toNat ∧ JumpFrame s t

/-- R171, R172: JZ (06 lo hi) and JNZ (0C lo hi) set `pc` to the address if `Z` is set, respectively clear, and otherwise leave it
past the instruction; they change nothing else. -/
def Obligations.ConditionalAbsoluteJumps : Prop :=
  ∀ (lo hi : Byte), encode (.jz (joinBytes hi lo)) = [0x06, lo, hi] ∧ encode (.jnz (joinBytes hi lo)) = [0x0C, lo, hi] ∧
    ∀ s : State,
      (∃ t, exec (.jz (joinBytes hi lo)) s = .next t ∧ (s.z = true → t.pc.toNat = lo.toNat + 256 * hi.toNat) ∧
        (s.z = false → t.pc = s.pc) ∧ JumpFrame s t) ∧
      (∃ t, exec (.jnz (joinBytes hi lo)) s = .next t ∧ (s.z = false → t.pc.toNat = lo.toNat + 256 * hi.toNat) ∧
        (s.z = true → t.pc = s.pc) ∧ JumpFrame s t)

/-- R173 (D3 for a byte of 16 or more): JMPR, the bytes 14 r, jumps to the register's value; byte 0 and a byte that names no
register jump to 0. -/
def Obligations.JmprJumpsToTheRegister : Prop :=
  ∀ (r : Byte), encode (.jmpr r) = [0x14, r] ∧ ∀ s : State, ∃ t, exec (.jmpr r) s = .next t ∧
    (∀ i : Fin 16, 1 ≤ i.val → r.toNat = i.val → t.pc = s.regs[i]) ∧ (¬NamesRegister r → t.pc = 0) ∧ JumpFrame s t

/-- R174, R175: JZR (15 r) and JNZR (16 r) jump to the value of their register if `Z` is set, respectively clear, and otherwise
leave `pc` past the instruction; with byte 0 the target is 0. -/
def Obligations.ConditionalRegisterJumps : Prop :=
  ∀ (r : Byte), encode (.jzr r) = [0x15, r] ∧ encode (.jnzr r) = [0x16, r] ∧
    ∀ s : State,
      (∃ t, exec (.jzr r) s = .next t ∧ (s.z = true → t.pc = s.x r ∧ (r = 0 → t.pc = 0)) ∧
        (s.z = false → t.pc = s.pc) ∧ JumpFrame s t) ∧
      (∃ t, exec (.jnzr r) s = .next t ∧ (s.z = false → t.pc = s.x r ∧ (r = 0 → t.pc = 0)) ∧
        (s.z = true → t.pc = s.pc) ∧ JumpFrame s t)

/-! ## Loads and stores (43_load_store.md, 20_memory.md) -/

/-- R53, R57, R58 (the wrap is the spec's decisions D7 and D8): a word is its low byte at the lower address plus 256 times
the byte at the next address, in memory and in the instruction stream; `fetch16` advances `pc` by 2 and changes nothing else.
-/
def Obligations.WordsAreLittleEndian : Prop :=
  (∀ (s : State) (a : Word), (s.readWord a).toNat = (s.readByte a).toNat + 256 * (s.readByte (a + 1)).toNat) ∧
  (∀ s : State, s.fetch16.1.toNat = (s.readByte s.pc).toNat + 256 * (s.readByte (s.pc + 1)).toNat ∧
    s.fetch16.2 = { s with pc := s.pc + 2 })

/-- R190, R191, R61 (D3, D4, D8): LD, absolute (08 r lo hi) or register (11 r1 r2), completes at every address, a port's or
not, and loads the two plain-memory bytes little-endian; nothing but the destination and `Z` changes, so a load has no side
effect. -/
def Obligations.LoadsReadPlainMemory : Prop :=
  (∀ r lo hi : Byte, encode (.ldAbs r (joinBytes hi lo)) = [0x08, r, lo, hi]) ∧
  (∀ r1 r2 : Byte, encode (.ldReg r1 r2) = [0x11, r1, r2]) ∧
  ∀ (i : Instr) (r : Byte) (a : Word) (s : State),
    (i = .ldAbs r a ∨ ∃ r2, i = .ldReg r r2 ∧ a = s.x r2) →
    ∃ t, exec i s = .next t ∧
      (NamesRegister r → (t.x r).toNat = (s.readByte a).toNat + 256 * (s.readByte (a + 1)).toNat) ∧
      (t.z = true ↔ (s.readByte a).toNat = 0 ∧ (s.readByte (a + 1)).toNat = 0) ∧ ResultFrame r s t

/-- R192, R193, R68, R69 (D3, D8, D28): a store, absolute (09 r lo hi) or register (12 r1 r2), to an address that is no port
completes and writes the low byte there and the high byte at the next address, port or not; every other byte and everything
else is unchanged. -/
def Obligations.PlainStoresWriteTwoBytes : Prop :=
  (∀ r lo hi : Byte, encode (.stAbs r (joinBytes hi lo)) = [0x09, r, lo, hi]) ∧
  (∀ r1 r2 : Byte, encode (.stReg r1 r2) = [0x12, r1, r2]) ∧
  ∀ (i : Instr) (s : State) (a v : Word), StoreForm i s a v → s.isPort a = false →
    ∃ t, exec i s = .next t ∧ (t.readByte a).toNat = v.toNat % 256 ∧ (t.readByte (a + 1)).toNat = v.toNat / 256 ∧
      (∀ b : Word, b ≠ a → b ≠ a + 1 → t.readByte b = s.readByte b) ∧
      CoreFrame s t ∧ KeepsDisplay s t ∧ t.trace = s.trace

/-- R63 (D21: the byte is emitted unchanged): a store to the character port emits its low byte and changes nothing else, no
byte of memory included. -/
def Obligations.CharacterPortEmitsTheLowByte : Prop :=
  ∀ (i : Instr) (s : State) (v : Word), StoreForm i s s.params.portCharOut v →
    ∃ t, exec i s = .next t ∧ (∃ b : Byte, b.toNat = v.toNat % 256 ∧ t.trace = s.trace ++ [.char b]) ∧
      CoreFrame s t ∧ KeepsMem s t ∧ KeepsDisplay s t

/-- R64, R65 (D10: the high port takes the LOW byte of the value): a store to a VRAM-address port replaces one byte of the
cursor and keeps the other; nothing else changes. -/
def Obligations.CursorPortsReplaceOneByte : Prop :=
  ∀ (i : Instr) (s : State) (v : Word), s.params.PortsDistinct →
    (StoreForm i s s.params.portVramAddrLo v →
      ∃ t, exec i s = .next t ∧ t.vramCursor.toNat = 256 * (s.vramCursor.toNat / 256) + v.toNat % 256 ∧
        CoreFrame s t ∧ KeepsMem s t ∧ KeepsVram s t ∧ t.frameReady = s.frameReady ∧ t.trace = s.trace) ∧
    (StoreForm i s s.params.portVramAddrHi v →
      ∃ t, exec i s = .next t ∧ t.vramCursor.toNat = 256 * (v.toNat % 256) + s.vramCursor.toNat % 256 ∧
        CoreFrame s t ∧ KeepsMem s t ∧ KeepsVram s t ∧ t.frameReady = s.frameReady ∧ t.trace = s.trace)

/-- R66 (its lack of a condition is derived; D19): a store to the VRAM-data port writes the low byte at the cursor and makes
exactly one display write; the cursor does not move, plain memory is untouched. -/
def Obligations.VramDataPortWritesAtTheCursor : Prop :=
  ∀ (i : Instr) (s : State) (v : Word), s.params.PortsDistinct → StoreForm i s s.params.portVramData v →
    ∃ t, exec i s = .next t ∧ (t.vramByte s.vramCursor).toNat = v.toNat % 256 ∧
      (∀ a : Word, a ≠ s.vramCursor → t.vramByte a = s.vramByte a) ∧
      t.trace = s.trace ++ [.displayWrite s.vramCursor (t.vramByte s.vramCursor)] ∧ t.vramCursor = s.vramCursor ∧
      t.frameReady = s.frameReady ∧ CoreFrame s t ∧ KeepsMem s t

/-- R67 (D24: the value is ignored): a store to the present port sets the frame-ready flag and does nothing else. -/
def Obligations.PresentPortArmsTheFrameFlag : Prop :=
  ∀ (i : Instr) (s : State) (v : Word), s.params.PortsDistinct → StoreForm i s s.params.portPresent v →
    ∃ t, exec i s = .next t ∧ t.frameReady = true ∧ CoreFrame s t ∧ KeepsMem s t ∧ KeepsVram s t ∧
      t.vramCursor = s.vramCursor ∧ t.trace = s.trace

/-- R66's sequence (D10): a store to the low cursor port, one to the high port and one to the data port, the first two in either
order, give exactly one display write, at the address the two bytes assemble to. -/
def Obligations.VramWriteSequence : Prop :=
  ∀ (i1 i2 i3 : Instr) (s s1 s2 s3 : State) (lo hi v : Word), s.params.PortsDistinct →
    ((StoreForm i1 s s.params.portVramAddrLo lo ∧ StoreForm i2 s1 s.params.portVramAddrHi hi) ∨
      (StoreForm i1 s s.params.portVramAddrHi hi ∧ StoreForm i2 s1 s.params.portVramAddrLo lo)) →
    StoreForm i3 s2 s.params.portVramData v →
    exec i1 s = .next s1 → exec i2 s1 = .next s2 → exec i3 s2 = .next s3 →
    s3.vramCursor = joinBytes (loByte hi) (loByte lo) ∧
      s3.trace = s.trace ++ [.displayWrite (joinBytes (loByte hi) (loByte lo)) (loByte v)] ∧
      s3.vramByte (joinBytes (loByte hi) (loByte lo)) = loByte v ∧ KeepsMem s s3

/-- R195 (derived): after a store to an address that is no port, a load from it, absolute or register, returns the value
stored; after a store to a port, a load from it returns the plain-memory word, which the store did not change. -/
def Obligations.LoadAfterStore : Prop :=
  ∀ (i j : Instr) (s t : State) (a v : Word) (r : Byte),
    StoreForm i s a v → exec i s = .next t → NamesRegister r →
    (j = .ldAbs r a ∨ ∃ r2, j = .ldReg r r2 ∧ t.x r2 = a) →
    ∃ u, exec j t = .next u ∧ (s.isPort a = false → u.x r = v) ∧
      (s.isPort a = true → (u.x r).toNat = (s.readByte a).toNat + 256 * (s.readByte (a + 1)).toNat)

/-! ## Text output (44_output.md, 50_interfaces.md) -/

/-- R210 (D3 for a byte of 16 or more): OUT, the bytes 0A r, appends `Dec(x[r])` and changes nothing else. -/
def Obligations.OutEmitsTheRegisterValue : Prop :=
  ∀ (r : Byte), encode (.out r) = [0x0A, r] ∧ ∀ s : State, ∃ t, exec (.out r) s = .next t ∧ t.trace = s.trace ++ [.dec (s.x r)] ∧
    CoreFrame s t ∧ KeepsMem s t ∧ KeepsDisplay s t

/-- R211 (D8, D21, D29): if the first zero byte at or after the address, modulo 65536, is `k` bytes on, PRTSTR, the bytes 0D
lo hi, completes, having emitted the `k` bytes before it in order, and changes nothing else. -/
def Obligations.PrtstrEmitsUpToTheZeroByte : Prop :=
  (∀ lo hi : Byte, encode (.prtstr (joinBytes hi lo)) = [0x0D, lo, hi]) ∧
  ∀ (addr : Word) (s : State) (k : Nat), k < 65536 → s.readByte (addr + BitVec.ofNat 16 k) = 0 →
    (∀ j, j < k → s.readByte (addr + BitVec.ofNat 16 j) ≠ 0) →
    ∃ t, exec (.prtstr addr) s = .next t ∧
      t.trace = s.trace ++ (List.range k).map (fun j => .char (s.readByte (addr + BitVec.ofNat 16 j))) ∧
      CoreFrame s t ∧ KeepsMem s t ∧ KeepsDisplay s t

/-- R212 (the spec's decision D17; that the outcome is `fault` is the model's choice, log 13): PRTSTR has no successor state
exactly when no byte of plain memory is zero. -/
def Obligations.PrtstrHangsExactlyWithoutAZeroByte : Prop :=
  ∀ (addr : Word) (s : State),
    exec (.prtstr addr) s = .fault .prtstrNeverCompletes ↔ ∀ a : Word, s.readByte a ≠ 0

/-- R236 (D25) and R223: an instruction only appends to the output trace; `Dec` events come from OUT, `Char` events from
PRTSTR and the character port, `DisplayWrite` events from the VRAM-data port, and every other instruction appends nothing. -/
def Obligations.TraceGrowsOnlyByItsSources : Prop :=
  ∀ (i : Instr) (s t : State), exec i s = .next t → ∃ es, t.trace = s.trace ++ es ∧ (mayEmit i = false → es = []) ∧
    (∀ v, .dec v ∈ es → ∃ r, i = .out r ∧ v = s.x r) ∧
    (∀ b, .char b ∈ es → (∃ a, i = .prtstr a) ∨ ∃ v, StoreForm i s s.params.portCharOut v ∧ b = loByte v) ∧
    (∀ a b, .displayWrite a b ∈ es → a = s.vramCursor ∧ ∃ v, StoreForm i s s.params.portVramData v ∧ b = loByte v)

/-- R35, R36, R37, R68: what changes, changes by a store to its place. The cursor changes only by a store to one of its two ports,
which replaces one byte (the high port by the LOW byte of the value: D10); a changed byte of VRAM is the one at the cursor, by a
store to the data port; the frame-ready flag changes only by a store to the present port and only to 1; a changed byte of plain
memory is one of the two at the store's own address, which is no port (`a + 1` wraps: D8, and may be a port: D28). -/
def Obligations.HiddenStateChangesOnlyThroughItsPort : Prop :=
  ∀ (i : Instr) (s t : State), exec i s = .next t →
    (t.vramCursor ≠ s.vramCursor →
      ∃ v, (StoreForm i s s.params.portVramAddrLo v ∧ t.vramCursor = joinBytes (hiByte s.vramCursor) (loByte v)) ∨
        (StoreForm i s s.params.portVramAddrHi v ∧ t.vramCursor = joinBytes (loByte v) (loByte s.vramCursor))) ∧
    (∀ b : Word, t.vramByte b ≠ s.vramByte b →
      b = s.vramCursor ∧ ∃ v, StoreForm i s s.params.portVramData v ∧ t.vramByte b = loByte v) ∧
    (t.frameReady ≠ s.frameReady → t.frameReady = true ∧ ∃ v, StoreForm i s s.params.portPresent v) ∧
    (∀ b : Word, t.readByte b ≠ s.readByte b →
      ∃ a v, StoreForm i s a v ∧ s.isPort a = false ∧
        ((b = a ∧ t.readByte b = loByte v) ∨ (b = a + 1 ∧ t.readByte b = hiByte v)))

/-- R41: a program observes none of `vram_cursor`, `vram`, `frame_ready`, `running` and `fault` (nor the trace) through any
instruction: from two states that differ only there, every instruction gives states that again differ only there, or
hangs in both. -/
def Obligations.HiddenStateIsNeverObserved : Prop :=
  ∀ (i : Instr) (s s' : State), SeesSame s s' →
    (∀ t, exec i s = .next t → ∃ t', exec i s' = .next t' ∧ SeesSame t t') ∧
    (∀ f, exec i s = .fault f → exec i s' = .fault f)

/-- R210 (D16; ASCII digits are the spec's own general knowledge): the text of a number is its unsigned decimal numeral:
digits 0x30 to 0x39, one to five of them, no leading zero, a single `0` for zero, and their value is the number. -/
def Obligations.DecimalTextIsTheNumeral : Prop :=
  ∀ v : Word,
    (decText v).foldl (fun n d => 10 * n + (d.toNat - 0x30)) 0 = v.toNat ∧
    (∀ d ∈ decText v, 0x30 ≤ d.toNat ∧ d.toNat ≤ 0x39) ∧
    1 ≤ (decText v).length ∧ (decText v).length ≤ 5 ∧
    (v ≠ 0 → (decText v).head? ≠ some 0x30) ∧ (v = 0 → decText v = [0x30])

/-! ## The host (50_interfaces.md) -/

/-- R234, R235, R245 (D18; past 0xFFFF the loader goes on at 0x0000: the model's own choice, log 18): the loader and the
acknowledge change no register, `pc`, `Z`, `running`, fault, cursor, VRAM or trace. The acknowledge clears the frame-ready
flag and nothing else; the loader puts its bytes at consecutive addresses, ports or not, and nothing else, and does not touch
the flag. -/
def Obligations.HostMovesTouchOnlyMemoryAndTheFrameFlag : Prop :=
  ∀ s : State,
    (∃ t, applyMove .frameAck s = .next t ∧ t.frameReady = false ∧ KeepsRegs s t ∧ t.pc = s.pc ∧ t.z = s.z ∧
      KeepsControl s t ∧ KeepsMem s t ∧ KeepsVram s t ∧ t.vramCursor = s.vramCursor ∧ t.trace = s.trace ∧
      t.params = s.params) ∧
    (∀ (base : Word) (bytes : List Byte), bytes.length ≤ 65536 →
      ∃ t, applyMove (.load base bytes) s = .next t ∧
        (∀ k (h : k < bytes.length), t.readByte (base + BitVec.ofNat 16 k) = bytes[k]) ∧
        (∀ a : Word, (∀ k, k < bytes.length → a ≠ base + BitVec.ofNat 16 k) → t.readByte a = s.readByte a) ∧
        KeepsRegs s t ∧ t.pc = s.pc ∧ t.z = s.z ∧ KeepsControl s t ∧ KeepsDisplay s t ∧ t.trace = s.trace ∧
        t.params = s.params)

/-! ## The opcode map (30_encoding.md R96) -/

/-- R96: the complete opcode map: each code with its operands in the order of its row decodes to the row's instruction, whatever
bytes follow, and every other byte decodes alone, to an unknown opcode, which is fatal. -/
def Obligations.OpcodeMapIsTheSpecs : Prop :=
  (∀ tail : List Byte, decode (0x00 :: tail) = .ok (.nop, tail) ∧ decode (0xFF :: tail) = .ok (.halt, tail)) ∧
  (∀ (r imm8 : Byte) (tail : List Byte),
    decode (0x01 :: r :: imm8 :: tail) = .ok (.ldi r imm8, tail) ∧
    decode (0x13 :: r :: imm8 :: tail) = .ok (.lui r imm8, tail)) ∧
  (∀ (r1 r2 : Byte) (tail : List Byte),
    decode (0x02 :: r1 :: r2 :: tail) = .ok (.mov r1 r2, tail) ∧
    decode (0x03 :: r1 :: r2 :: tail) = .ok (.add r1 r2, tail) ∧
    decode (0x04 :: r1 :: r2 :: tail) = .ok (.sub r1 r2, tail) ∧
    decode (0x0E :: r1 :: r2 :: tail) = .ok (.mul r1 r2, tail) ∧
    decode (0x0F :: r1 :: r2 :: tail) = .ok (.div r1 r2, tail) ∧
    decode (0x10 :: r1 :: r2 :: tail) = .ok (.mod r1 r2, tail) ∧
    decode (0x07 :: r1 :: r2 :: tail) = .ok (.cmp r1 r2, tail) ∧
    decode (0x11 :: r1 :: r2 :: tail) = .ok (.ldReg r1 r2, tail) ∧
    decode (0x12 :: r1 :: r2 :: tail) = .ok (.stReg r1 r2, tail)) ∧
  (∀ (lo hi : Byte) (tail : List Byte),
    decode (0x05 :: lo :: hi :: tail) = .ok (.jmp (joinBytes hi lo), tail) ∧
    decode (0x06 :: lo :: hi :: tail) = .ok (.jz (joinBytes hi lo), tail) ∧
    decode (0x0C :: lo :: hi :: tail) = .ok (.jnz (joinBytes hi lo), tail) ∧
    decode (0x0D :: lo :: hi :: tail) = .ok (.prtstr (joinBytes hi lo), tail)) ∧
  (∀ (r : Byte) (tail : List Byte),
    decode (0x14 :: r :: tail) = .ok (.jmpr r, tail) ∧ decode (0x15 :: r :: tail) = .ok (.jzr r, tail) ∧
    decode (0x16 :: r :: tail) = .ok (.jnzr r, tail) ∧ decode (0x0A :: r :: tail) = .ok (.out r, tail) ∧
    decode (0x0B :: r :: tail) = .ok (.inc r, tail)) ∧
  (∀ (r lo hi : Byte) (tail : List Byte),
    decode (0x08 :: r :: lo :: hi :: tail) = .ok (.ldAbs r (joinBytes hi lo), tail) ∧
    decode (0x09 :: r :: lo :: hi :: tail) = .ok (.stAbs r (joinBytes hi lo), tail)) ∧
  (∀ (op : Byte) (tail : List Byte), 0x17 ≤ op.toNat → op.toNat ≤ 0xFE →
    decode (op :: tail) = .ok (.illegal op, tail) ∧ ∀ s : State, ∃ t, exec (.illegal op) s = .next t ∧
      t.fault.cause = .unknownOpcode ∧ t.running = false)
end

