-- ==== Sys2Proof/Laws/State.lean ====
section
/-! SUPPORT. What each one-field update does to each field of the state: one lemma per field per update, all true by `rfl`,
so that no later proof unfolds a record update. -/

namespace Sys2Proof.Machine

/-! ## `setPc` -/

@[simp] theorem State.setPc_regs (s : State) (t : Word) : (s.setPc t).regs = s.regs := rfl
@[simp] theorem State.setPc_pc (s : State) (t : Word) : (s.setPc t).pc = t := rfl
@[simp] theorem State.setPc_z (s : State) (t : Word) : (s.setPc t).z = s.z := rfl
@[simp] theorem State.setPc_running (s : State) (t : Word) : (s.setPc t).running = s.running := rfl
@[simp] theorem State.setPc_fault (s : State) (t : Word) : (s.setPc t).fault = s.fault := rfl
@[simp] theorem State.setPc_mem (s : State) (t : Word) : (s.setPc t).mem = s.mem := rfl
@[simp] theorem State.setPc_vram (s : State) (t : Word) : (s.setPc t).vram = s.vram := rfl
@[simp] theorem State.setPc_vramCursor (s : State) (t : Word) : (s.setPc t).vramCursor = s.vramCursor := rfl
@[simp] theorem State.setPc_frameReady (s : State) (t : Word) : (s.setPc t).frameReady = s.frameReady := rfl
@[simp] theorem State.setPc_trace (s : State) (t : Word) : (s.setPc t).trace = s.trace := rfl
@[simp] theorem State.setPc_params (s : State) (t : Word) : (s.setPc t).params = s.params := rfl

/-! ## `setZ` -/

@[simp] theorem State.setZ_regs (s : State) (b : Bool) : (s.setZ b).regs = s.regs := rfl
@[simp] theorem State.setZ_pc (s : State) (b : Bool) : (s.setZ b).pc = s.pc := rfl
@[simp] theorem State.setZ_z (s : State) (b : Bool) : (s.setZ b).z = b := rfl
@[simp] theorem State.setZ_running (s : State) (b : Bool) : (s.setZ b).running = s.running := rfl
@[simp] theorem State.setZ_fault (s : State) (b : Bool) : (s.setZ b).fault = s.fault := rfl
@[simp] theorem State.setZ_mem (s : State) (b : Bool) : (s.setZ b).mem = s.mem := rfl
@[simp] theorem State.setZ_vram (s : State) (b : Bool) : (s.setZ b).vram = s.vram := rfl
@[simp] theorem State.setZ_vramCursor (s : State) (b : Bool) : (s.setZ b).vramCursor = s.vramCursor := rfl
@[simp] theorem State.setZ_frameReady (s : State) (b : Bool) : (s.setZ b).frameReady = s.frameReady := rfl
@[simp] theorem State.setZ_trace (s : State) (b : Bool) : (s.setZ b).trace = s.trace := rfl
@[simp] theorem State.setZ_params (s : State) (b : Bool) : (s.setZ b).params = s.params := rfl

/-! ## `halt` -/

@[simp] theorem State.halt_regs (s : State) : (s.halt).regs = s.regs := rfl
@[simp] theorem State.halt_pc (s : State) : (s.halt).pc = s.pc := rfl
@[simp] theorem State.halt_z (s : State) : (s.halt).z = s.z := rfl
@[simp] theorem State.halt_running (s : State) : (s.halt).running = false := rfl
@[simp] theorem State.halt_fault (s : State) : (s.halt).fault = s.fault := rfl
@[simp] theorem State.halt_mem (s : State) : (s.halt).mem = s.mem := rfl
@[simp] theorem State.halt_vram (s : State) : (s.halt).vram = s.vram := rfl
@[simp] theorem State.halt_vramCursor (s : State) : (s.halt).vramCursor = s.vramCursor := rfl
@[simp] theorem State.halt_frameReady (s : State) : (s.halt).frameReady = s.frameReady := rfl
@[simp] theorem State.halt_trace (s : State) : (s.halt).trace = s.trace := rfl
@[simp] theorem State.halt_params (s : State) : (s.halt).params = s.params := rfl

/-! ## `setFault` -/

@[simp] theorem State.setFault_regs (s : State) (f : FaultRecord) : (s.setFault f).regs = s.regs := rfl
@[simp] theorem State.setFault_pc (s : State) (f : FaultRecord) : (s.setFault f).pc = s.pc := rfl
@[simp] theorem State.setFault_z (s : State) (f : FaultRecord) : (s.setFault f).z = s.z := rfl
@[simp] theorem State.setFault_running (s : State) (f : FaultRecord) : (s.setFault f).running = s.running := rfl
@[simp] theorem State.setFault_fault (s : State) (f : FaultRecord) : (s.setFault f).fault = f := rfl
@[simp] theorem State.setFault_mem (s : State) (f : FaultRecord) : (s.setFault f).mem = s.mem := rfl
@[simp] theorem State.setFault_vram (s : State) (f : FaultRecord) : (s.setFault f).vram = s.vram := rfl
@[simp] theorem State.setFault_vramCursor (s : State) (f : FaultRecord) : (s.setFault f).vramCursor = s.vramCursor := rfl
@[simp] theorem State.setFault_frameReady (s : State) (f : FaultRecord) : (s.setFault f).frameReady = s.frameReady := rfl
@[simp] theorem State.setFault_trace (s : State) (f : FaultRecord) : (s.setFault f).trace = s.trace := rfl
@[simp] theorem State.setFault_params (s : State) (f : FaultRecord) : (s.setFault f).params = s.params := rfl

/-! ## `setCursor` -/

@[simp] theorem State.setCursor_regs (s : State) (v : Word) : (s.setCursor v).regs = s.regs := rfl
@[simp] theorem State.setCursor_pc (s : State) (v : Word) : (s.setCursor v).pc = s.pc := rfl
@[simp] theorem State.setCursor_z (s : State) (v : Word) : (s.setCursor v).z = s.z := rfl
@[simp] theorem State.setCursor_running (s : State) (v : Word) : (s.setCursor v).running = s.running := rfl
@[simp] theorem State.setCursor_fault (s : State) (v : Word) : (s.setCursor v).fault = s.fault := rfl
@[simp] theorem State.setCursor_mem (s : State) (v : Word) : (s.setCursor v).mem = s.mem := rfl
@[simp] theorem State.setCursor_vram (s : State) (v : Word) : (s.setCursor v).vram = s.vram := rfl
@[simp] theorem State.setCursor_vramCursor (s : State) (v : Word) : (s.setCursor v).vramCursor = v := rfl
@[simp] theorem State.setCursor_frameReady (s : State) (v : Word) : (s.setCursor v).frameReady = s.frameReady := rfl
@[simp] theorem State.setCursor_trace (s : State) (v : Word) : (s.setCursor v).trace = s.trace := rfl
@[simp] theorem State.setCursor_params (s : State) (v : Word) : (s.setCursor v).params = s.params := rfl

/-! ## `armFrame` -/

@[simp] theorem State.armFrame_regs (s : State) : (s.armFrame).regs = s.regs := rfl
@[simp] theorem State.armFrame_pc (s : State) : (s.armFrame).pc = s.pc := rfl
@[simp] theorem State.armFrame_z (s : State) : (s.armFrame).z = s.z := rfl
@[simp] theorem State.armFrame_running (s : State) : (s.armFrame).running = s.running := rfl
@[simp] theorem State.armFrame_fault (s : State) : (s.armFrame).fault = s.fault := rfl
@[simp] theorem State.armFrame_mem (s : State) : (s.armFrame).mem = s.mem := rfl
@[simp] theorem State.armFrame_vram (s : State) : (s.armFrame).vram = s.vram := rfl
@[simp] theorem State.armFrame_vramCursor (s : State) : (s.armFrame).vramCursor = s.vramCursor := rfl
@[simp] theorem State.armFrame_frameReady (s : State) : (s.armFrame).frameReady = true := rfl
@[simp] theorem State.armFrame_trace (s : State) : (s.armFrame).trace = s.trace := rfl
@[simp] theorem State.armFrame_params (s : State) : (s.armFrame).params = s.params := rfl

/-! ## `emitAll` -/

@[simp] theorem State.emitAll_regs (s : State) (es : List Event) : (s.emitAll es).regs = s.regs := rfl
@[simp] theorem State.emitAll_pc (s : State) (es : List Event) : (s.emitAll es).pc = s.pc := rfl
@[simp] theorem State.emitAll_z (s : State) (es : List Event) : (s.emitAll es).z = s.z := rfl
@[simp] theorem State.emitAll_running (s : State) (es : List Event) : (s.emitAll es).running = s.running := rfl
@[simp] theorem State.emitAll_fault (s : State) (es : List Event) : (s.emitAll es).fault = s.fault := rfl
@[simp] theorem State.emitAll_mem (s : State) (es : List Event) : (s.emitAll es).mem = s.mem := rfl
@[simp] theorem State.emitAll_vram (s : State) (es : List Event) : (s.emitAll es).vram = s.vram := rfl
@[simp] theorem State.emitAll_vramCursor (s : State) (es : List Event) : (s.emitAll es).vramCursor = s.vramCursor := rfl
@[simp] theorem State.emitAll_frameReady (s : State) (es : List Event) : (s.emitAll es).frameReady = s.frameReady := rfl
@[simp] theorem State.emitAll_trace (s : State) (es : List Event) : (s.emitAll es).trace = s.trace ++ es := rfl
@[simp] theorem State.emitAll_params (s : State) (es : List Event) : (s.emitAll es).params = s.params := rfl

/-! ## `emit` -/

@[simp] theorem State.emit_regs (s : State) (e : Event) : (s.emit e).regs = s.regs := rfl
@[simp] theorem State.emit_pc (s : State) (e : Event) : (s.emit e).pc = s.pc := rfl
@[simp] theorem State.emit_z (s : State) (e : Event) : (s.emit e).z = s.z := rfl
@[simp] theorem State.emit_running (s : State) (e : Event) : (s.emit e).running = s.running := rfl
@[simp] theorem State.emit_fault (s : State) (e : Event) : (s.emit e).fault = s.fault := rfl
@[simp] theorem State.emit_mem (s : State) (e : Event) : (s.emit e).mem = s.mem := rfl
@[simp] theorem State.emit_vram (s : State) (e : Event) : (s.emit e).vram = s.vram := rfl
@[simp] theorem State.emit_vramCursor (s : State) (e : Event) : (s.emit e).vramCursor = s.vramCursor := rfl
@[simp] theorem State.emit_frameReady (s : State) (e : Event) : (s.emit e).frameReady = s.frameReady := rfl
@[simp] theorem State.emit_trace (s : State) (e : Event) : (s.emit e).trace = s.trace ++ [e] := rfl
@[simp] theorem State.emit_params (s : State) (e : Event) : (s.emit e).params = s.params := rfl

/-! ## `writeByte` -/

@[simp] theorem State.writeByte_regs (s : State) (a : Word) (b : Byte) : (s.writeByte a b).regs = s.regs := rfl
@[simp] theorem State.writeByte_pc (s : State) (a : Word) (b : Byte) : (s.writeByte a b).pc = s.pc := rfl
@[simp] theorem State.writeByte_z (s : State) (a : Word) (b : Byte) : (s.writeByte a b).z = s.z := rfl
@[simp] theorem State.writeByte_running (s : State) (a : Word) (b : Byte) : (s.writeByte a b).running = s.running := rfl
@[simp] theorem State.writeByte_fault (s : State) (a : Word) (b : Byte) : (s.writeByte a b).fault = s.fault := rfl
@[simp] theorem State.writeByte_mem (s : State) (a : Word) (b : Byte) : (s.writeByte a b).mem = Memory.write s.mem a.toNat b := rfl
@[simp] theorem State.writeByte_vram (s : State) (a : Word) (b : Byte) : (s.writeByte a b).vram = s.vram := rfl
@[simp] theorem State.writeByte_vramCursor (s : State) (a : Word) (b : Byte) : (s.writeByte a b).vramCursor = s.vramCursor := rfl
@[simp] theorem State.writeByte_frameReady (s : State) (a : Word) (b : Byte) : (s.writeByte a b).frameReady = s.frameReady := rfl
@[simp] theorem State.writeByte_trace (s : State) (a : Word) (b : Byte) : (s.writeByte a b).trace = s.trace := rfl
@[simp] theorem State.writeByte_params (s : State) (a : Word) (b : Byte) : (s.writeByte a b).params = s.params := rfl

/-! ## `writeVram` -/

@[simp] theorem State.writeVram_regs (s : State) (a : Word) (b : Byte) : (s.writeVram a b).regs = s.regs := rfl
@[simp] theorem State.writeVram_pc (s : State) (a : Word) (b : Byte) : (s.writeVram a b).pc = s.pc := rfl
@[simp] theorem State.writeVram_z (s : State) (a : Word) (b : Byte) : (s.writeVram a b).z = s.z := rfl
@[simp] theorem State.writeVram_running (s : State) (a : Word) (b : Byte) : (s.writeVram a b).running = s.running := rfl
@[simp] theorem State.writeVram_fault (s : State) (a : Word) (b : Byte) : (s.writeVram a b).fault = s.fault := rfl
@[simp] theorem State.writeVram_mem (s : State) (a : Word) (b : Byte) : (s.writeVram a b).mem = s.mem := rfl
@[simp] theorem State.writeVram_vram (s : State) (a : Word) (b : Byte) : (s.writeVram a b).vram = Memory.write s.vram a.toNat b := rfl
@[simp] theorem State.writeVram_vramCursor (s : State) (a : Word) (b : Byte) : (s.writeVram a b).vramCursor = s.vramCursor := rfl
@[simp] theorem State.writeVram_frameReady (s : State) (a : Word) (b : Byte) : (s.writeVram a b).frameReady = s.frameReady := rfl
@[simp] theorem State.writeVram_trace (s : State) (a : Word) (b : Byte) : (s.writeVram a b).trace = s.trace := rfl
@[simp] theorem State.writeVram_params (s : State) (a : Word) (b : Byte) : (s.writeVram a b).params = s.params := rfl

/-! ## `endStep` -/

@[simp] theorem State.endStep_regs (s : State) : (s.endStep).regs = s.regs.set 0 0 := rfl
@[simp] theorem State.endStep_pc (s : State) : (s.endStep).pc = s.pc := rfl
@[simp] theorem State.endStep_z (s : State) : (s.endStep).z = s.z := rfl
@[simp] theorem State.endStep_running (s : State) : (s.endStep).running = s.running := rfl
@[simp] theorem State.endStep_fault (s : State) : (s.endStep).fault = s.fault := rfl
@[simp] theorem State.endStep_mem (s : State) : (s.endStep).mem = s.mem := rfl
@[simp] theorem State.endStep_vram (s : State) : (s.endStep).vram = s.vram := rfl
@[simp] theorem State.endStep_vramCursor (s : State) : (s.endStep).vramCursor = s.vramCursor := rfl
@[simp] theorem State.endStep_frameReady (s : State) : (s.endStep).frameReady = s.frameReady := rfl
@[simp] theorem State.endStep_trace (s : State) : (s.endStep).trace = s.trace := rfl
@[simp] theorem State.endStep_params (s : State) : (s.endStep).params = s.params := rfl

/-! ## `ackFrame` -/

@[simp] theorem State.ackFrame_regs (s : State) : (s.ackFrame).regs = s.regs := rfl
@[simp] theorem State.ackFrame_pc (s : State) : (s.ackFrame).pc = s.pc := rfl
@[simp] theorem State.ackFrame_z (s : State) : (s.ackFrame).z = s.z := rfl
@[simp] theorem State.ackFrame_running (s : State) : (s.ackFrame).running = s.running := rfl
@[simp] theorem State.ackFrame_fault (s : State) : (s.ackFrame).fault = s.fault := rfl
@[simp] theorem State.ackFrame_mem (s : State) : (s.ackFrame).mem = s.mem := rfl
@[simp] theorem State.ackFrame_vram (s : State) : (s.ackFrame).vram = s.vram := rfl
@[simp] theorem State.ackFrame_vramCursor (s : State) : (s.ackFrame).vramCursor = s.vramCursor := rfl
@[simp] theorem State.ackFrame_frameReady (s : State) : (s.ackFrame).frameReady = false := rfl
@[simp] theorem State.ackFrame_trace (s : State) : (s.ackFrame).trace = s.trace := rfl
@[simp] theorem State.ackFrame_params (s : State) : (s.ackFrame).params = s.params := rfl

end Sys2Proof.Machine
end

