-- ==== Sys2Proof/Laws/Memory.lean ====
section
/-! SUPPORT. The byte arrays: reading after writing, and that every operation that writes keeps the canonical form. -/

namespace Sys2Proof.Machine

/-! ## Reading after writing -/

@[simp] theorem Memory.read_nil (a : Nat) : Memory.read [] a = unlistedByte := rfl

theorem Memory.read_cons (c : Host.Cell) (m : Memory) (a : Nat) :
    Memory.read (c :: m) a = if c.1 = a then c.2 else Memory.read m a := rfl

theorem Memory.read_filter_ne (m : Memory) (a b : Nat) :
    Memory.read (m.filter (fun c => c.1 ≠ a)) b = if b = a then unlistedByte else Memory.read m b := by
  induction m with
  | nil => simp
  | cons c m ih =>
    by_cases hc : c.1 = a
    · rw [List.filter_cons_of_neg (by simpa using hc), ih, Memory.read_cons]
      split
      · rfl
      · rw [if_neg (by omega)]
    · rw [List.filter_cons_of_pos (by simpa using hc), Memory.read_cons, ih, Memory.read_cons]
      by_cases hb : b = a
      · rw [if_neg (by omega), if_pos hb, if_pos hb]
      · rw [if_neg hb, if_neg hb]

theorem Memory.read_insertCell (c : Host.Cell) (m : Memory) (b : Nat) (habs : Memory.read m c.1 = unlistedByte) :
    Memory.read (Memory.insertCell c m) b = if b = c.1 then c.2 else Memory.read m b := by
  induction m with
  | nil =>
    rw [Memory.insertCell, Memory.read_cons]
    by_cases h : c.1 = b
    · rw [if_pos h, if_pos h.symm]
    · rw [if_neg h, if_neg (Ne.symm h)]
  | cons d m ih =>
    rw [Memory.insertCell]
    split
    · next hlt =>
      rw [Memory.read_cons, if_neg (by omega)] at habs
      rw [Memory.read_cons, ih habs, Memory.read_cons]
      by_cases hd : d.1 = b
      · rw [if_pos hd, if_pos hd, if_neg (by omega)]
      · rw [if_neg hd, if_neg hd]
    · rw [Memory.read_cons]
      by_cases h : c.1 = b
      · rw [if_pos h, if_pos h.symm]
      · rw [if_neg h, if_neg (Ne.symm h)]

/-- A byte reads as last written; every other byte is unchanged. No canonical form is needed. -/
theorem Memory.read_write (m : Memory) (a b : Nat) (v : Byte) :
    Memory.read (Memory.write m a v) b = if b = a then v else Memory.read m b := by
  have hf := Memory.read_filter_ne m a
  unfold Memory.write
  dsimp only
  by_cases hv : v = unlistedByte
  · rw [if_pos hv, hf, hv]
  · rw [if_neg hv, Memory.read_insertCell _ _ _ (by rw [hf, if_pos rfl]), hf]
    split <;> rfl

/-! ## The canonical form -/

theorem Memory.wf_nil : Memory.wf [] := by decide

theorem Memory.wf_filter {m : Memory} (p : Host.Cell → Bool) (h : Memory.wf m) : Memory.wf (m.filter p) :=
  ⟨h.1.filter p, fun c hc => h.2 c (List.mem_filter.mp hc).1⟩

theorem Memory.mem_insertCell {c d : Host.Cell} {m : Memory} :
    d ∈ Memory.insertCell c m ↔ d = c ∨ d ∈ m := by
  induction m with
  | nil => simp [Memory.insertCell]
  | cons e m ih =>
    rw [Memory.insertCell]
    split
    · rw [List.mem_cons, ih, List.mem_cons]; tauto
    · rw [List.mem_cons]

theorem Memory.wf_insertCell {c : Host.Cell} {m : Memory} (h : Memory.wf m) (hc : c.1 < 65536 ∧ c.2 ≠ unlistedByte)
    (hne : ∀ d ∈ m, d.1 ≠ c.1) : Memory.wf (Memory.insertCell c m) := by
  refine ⟨?_, fun d hd => ?_⟩
  · induction m with
    | nil => simp [Memory.insertCell]
    | cons e m ih =>
      have hp := List.pairwise_cons.mp h.1
      rw [Memory.insertCell]
      split
      · next hlt =>
        refine List.pairwise_cons.mpr ⟨fun d hd => ?_, ?_⟩
        · rcases Memory.mem_insertCell.mp hd with rfl | hd
          · exact hlt
          · exact hp.1 d hd
        · exact ih ⟨hp.2, fun d hd => h.2 d (by simp [hd])⟩ (fun d hd => hne d (by simp [hd]))
      · next hge =>
        have he := hne e (by simp)
        refine List.pairwise_cons.mpr ⟨fun d hd => ?_, h.1⟩
        rcases List.mem_cons.mp hd with rfl | hd
        · omega
        · have := hp.1 d hd; omega
  · rcases Memory.mem_insertCell.mp hd with rfl | hd
    · exact hc
    · exact h.2 d hd

/-- Every write inside the address space keeps the canonical form. -/
theorem Memory.wf_write {m : Memory} (a : Nat) (v : Byte) (ha : a < 65536) (h : Memory.wf m) :
    Memory.wf (Memory.write m a v) := by
  unfold Memory.write
  have hf : Memory.wf (m.filter (fun c => c.1 ≠ a)) := Memory.wf_filter _ h
  by_cases hv : v = unlistedByte
  · simpa only [if_pos hv] using hf
  · simp only [if_neg hv]
    exact Memory.wf_insertCell hf ⟨ha, hv⟩ (fun d hd => by simpa using (List.mem_filter.mp hd).2)

/-! ## Bytes and words of the state -/

theorem toNat_inj_word {a b : Word} : a.toNat = b.toNat ↔ a = b := BitVec.toNat_inj

theorem State.readByte_writeByte (s : State) (a b : Word) (v : Byte) :
    (s.writeByte a v).readByte b = if b = a then v else s.readByte b := by
  simp only [State.readByte, State.writeByte_mem, Memory.read_write, toNat_inj_word]

theorem State.vramByte_writeVram (s : State) (a b : Word) (v : Byte) :
    (s.writeVram a v).vramByte b = if b = a then v else s.vramByte b := by
  simp only [State.vramByte, State.writeVram_vram, Memory.read_write, toNat_inj_word]

theorem State.wf_writeByte {s : State} (a : Word) (v : Byte) (h : Memory.wf s.mem) :
    Memory.wf (s.writeByte a v).mem := Memory.wf_write _ _ a.isLt h

theorem State.wf_writeVram {s : State} (a : Word) (v : Byte) (h : Memory.wf s.vram) :
    Memory.wf (s.writeVram a v).vram := Memory.wf_write _ _ a.isLt h

theorem word_add_one_ne (a : Word) : a + 1 ≠ a := by
  intro h
  have := congrArg BitVec.toNat h
  simp at this
  omega

/-- What a word store leaves in each byte of plain memory (20_memory.md R59). -/
theorem State.readByte_writeWord (s : State) (a v b : Word) :
    (s.writeWord a v).readByte b =
      if b = a then loByte v else if b = a + 1 then hiByte v else s.readByte b := by
  simp only [State.writeWord, State.readByte_writeByte]
  by_cases h1 : b = a + 1
  · rw [if_pos h1, if_neg (by rw [h1]; exact word_add_one_ne a), if_pos h1]
  · rw [if_neg h1, if_neg h1]

theorem State.wf_writeWord {s : State} (a v : Word) (h : Memory.wf s.mem) : Memory.wf (s.writeWord a v).mem :=
  State.wf_writeByte _ _ (State.wf_writeByte _ _ h)

/-- The loader keeps the canonical form. -/
theorem State.wf_loadBytes {s : State} (a : Word) (bs : List Byte) (h : Memory.wf s.mem) :
    Memory.wf (s.loadBytes a bs).mem := by
  induction bs generalizing s a with
  | nil => exact h
  | cons b bs ih => exact ih _ (State.wf_writeByte a b h)

/-- The memories of the reset state are canonical. -/
theorem State.wf_resetWith (p : Params) : Memory.wf (State.resetWith p).mem ∧ Memory.wf (State.resetWith p).vram :=
  ⟨Memory.wf_nil, Memory.wf_nil⟩

/-- Reading a byte depends on the memory alone. -/
theorem State.readByte_congr {s t : State} (h : t.mem = s.mem) (a : Word) : t.readByte a = s.readByte a := by
  simp only [State.readByte, h]

theorem State.vramByte_congr {s t : State} (h : t.vram = s.vram) (a : Word) : t.vramByte a = s.vramByte a := by
  simp only [State.vramByte, h]

end Sys2Proof.Machine
end

