-- ==== Sys2Proof/Laws/Registers.lean ====
section
/-! SUPPORT. The register ports (10_state.md R22, R23) and the byte-order helpers. -/

namespace Sys2Proof.Machine

/-! ## The read port -/

@[simp] theorem State.x_zero (s : State) : s.x 0 = 0 := by simp [State.x]

theorem State.x_of_names (s : State) (b : Byte) (h : 1 ≤ b.toNat ∧ b.toNat ≤ 15) :
    s.x b = s.regs[b.toNat]'(by omega) := by
  have hb : b ≠ 0 := by rintro rfl; simp at h
  rw [State.x, dif_pos (by omega), if_neg hb]

theorem State.x_of_not_names (s : State) (b : Byte) (h : ¬(1 ≤ b.toNat ∧ b.toNat ≤ 15)) : s.x b = 0 := by
  unfold State.x
  split
  · have hb : b = 0 := by
      apply BitVec.eq_of_toNat_eq
      simp
      omega
    rw [if_pos hb]
  · rfl

/-- A register reads the same in states with the same registers. -/
theorem State.x_congr {s t : State} (h : t.regs = s.regs) (b : Byte) : t.x b = s.x b := by simp only [State.x, h]

/-! ## The write port -/

theorem State.setX_regs_get (s : State) (b : Byte) (v : Word) (i : Fin 16) :
    (s.setX b v).regs[i] = if i.val = b.toNat ∧ i.val ≠ 0 then v else s.regs[i] := by
  unfold State.setX
  have hi := i.isLt
  by_cases h : 1 ≤ b.toNat ∧ b.toNat ≤ 15
  · simp only [dif_pos h, Fin.getElem_fin, Vector.getElem_set]
    by_cases hb : b.toNat = i.val
    · rw [if_pos hb, if_pos ⟨hb.symm, by omega⟩]
    · rw [if_neg hb, if_neg (by omega)]
  · rw [dif_neg h, if_neg (by omega)]

theorem State.x_setX_same (s : State) (b : Byte) (v : Word) (h : 1 ≤ b.toNat ∧ b.toNat ≤ 15) :
    (s.setX b v).x b = v := by
  rw [State.x_of_names _ _ h]
  exact (s.setX_regs_get b v ⟨b.toNat, by omega⟩).trans (if_pos ⟨rfl, by simp only; omega⟩)

theorem State.setX_of_not_names (s : State) (b : Byte) (v : Word) (h : ¬(1 ≤ b.toNat ∧ b.toNat ≤ 15)) :
    s.setX b v = s := by rw [State.setX, dif_neg h]

/-- The write port changes no field but the registers. -/
theorem State.setX_eq (s : State) (b : Byte) (v : Word) : s.setX b v = { s with regs := (s.setX b v).regs } := by
  unfold State.setX
  split <;> rfl

@[simp] theorem State.setX_pc (s : State) (b : Byte) (v : Word) : (s.setX b v).pc = s.pc := by rw [State.setX_eq]
@[simp] theorem State.setX_z (s : State) (b : Byte) (v : Word) : (s.setX b v).z = s.z := by rw [State.setX_eq]
@[simp] theorem State.setX_running (s : State) (b : Byte) (v : Word) : (s.setX b v).running = s.running := by
  rw [State.setX_eq]
@[simp] theorem State.setX_fault (s : State) (b : Byte) (v : Word) : (s.setX b v).fault = s.fault := by rw [State.setX_eq]
@[simp] theorem State.setX_mem (s : State) (b : Byte) (v : Word) : (s.setX b v).mem = s.mem := by rw [State.setX_eq]
@[simp] theorem State.setX_vram (s : State) (b : Byte) (v : Word) : (s.setX b v).vram = s.vram := by rw [State.setX_eq]
@[simp] theorem State.setX_vramCursor (s : State) (b : Byte) (v : Word) : (s.setX b v).vramCursor = s.vramCursor := by
  rw [State.setX_eq]
@[simp] theorem State.setX_frameReady (s : State) (b : Byte) (v : Word) : (s.setX b v).frameReady = s.frameReady := by
  rw [State.setX_eq]
@[simp] theorem State.setX_trace (s : State) (b : Byte) (v : Word) : (s.setX b v).trace = s.trace := by rw [State.setX_eq]
@[simp] theorem State.setX_params (s : State) (b : Byte) (v : Word) : (s.setX b v).params = s.params := by
  rw [State.setX_eq]

/-! ## `writeResult` -/

/-- `writeResult` changes the registers, by the write port, and `Z`, from the result; nothing else. -/
theorem State.writeResult_eq (s : State) (b : Byte) (v : Word) :
    s.writeResult b v = { s with regs := (s.setX b v).regs, z := zeroFlag v } := by
  rw [State.writeResult, State.setX_eq]
  rfl

theorem zeroFlag_iff (v : Word) : zeroFlag v = true ↔ v.toNat = 0 := by
  simp only [zeroFlag, beq_iff_eq]
  exact ⟨fun h => by simp [h], fun h => BitVec.eq_of_toNat_eq (by simpa using h)⟩

/-! ## Byte order -/

theorem joinBytes_toNat (hi lo : Byte) : (joinBytes hi lo).toNat = lo.toNat + 256 * hi.toNat := by
  have hl := lo.isLt
  simp only [joinBytes, BitVec.toNat_append]
  rw [Nat.shiftLeft_eq, Nat.mul_comm, ← Nat.two_pow_add_eq_or_of_lt hl]
  omega

theorem loByte_joinBytes (hi lo : Byte) : loByte (joinBytes hi lo) = lo := by
  apply BitVec.eq_of_toNat_eq
  have := joinBytes_toNat hi lo
  have hl := lo.isLt
  simp only [loByte, BitVec.extractLsb'_toNat, this, Nat.shiftRight_zero]
  omega

theorem hiByte_joinBytes (hi lo : Byte) : hiByte (joinBytes hi lo) = hi := by
  apply BitVec.eq_of_toNat_eq
  have := joinBytes_toNat hi lo
  have hl := lo.isLt
  have hh := hi.isLt
  simp only [hiByte, BitVec.extractLsb'_toNat, this, Nat.shiftRight_eq_div_pow]
  omega

theorem joinBytes_hi_lo (v : Word) : joinBytes (hiByte v) (loByte v) = v := by
  apply BitVec.eq_of_toNat_eq
  have hv := v.isLt
  rw [joinBytes_toNat]
  simp only [hiByte, loByte, BitVec.extractLsb'_toNat, Nat.shiftRight_eq_div_pow]
  omega

end Sys2Proof.Machine
end

