-- ==== Sys2Proof/Laws/Ops.lean ====
section
/-! SUPPORT. What the shared operations over the state can do: the address router, fault entry, the end of a step, the loader. -/

namespace Sys2Proof.Machine

/-- Everything a routed store can do (20_memory.md R62): exactly one of six cases, in priority order. -/
theorem State.routerStore_cases (s : State) (a v : Word) :
    (a = s.params.portCharOut ∧ s.routerStore a v = s.emit (.char (loByte v))) ∨
    (a ≠ s.params.portCharOut ∧ a = s.params.portVramAddrLo ∧
      s.routerStore a v = s.setCursor (joinBytes (hiByte s.vramCursor) (loByte v))) ∨
    (a ≠ s.params.portCharOut ∧ a ≠ s.params.portVramAddrLo ∧ a = s.params.portVramAddrHi ∧
      s.routerStore a v = s.setCursor (joinBytes (loByte v) (loByte s.vramCursor))) ∨
    (a ≠ s.params.portCharOut ∧ a ≠ s.params.portVramAddrLo ∧ a ≠ s.params.portVramAddrHi ∧
      a = s.params.portVramData ∧
      s.routerStore a v = (s.writeVram s.vramCursor (loByte v)).emit (.displayWrite s.vramCursor (loByte v))) ∨
    (a ≠ s.params.portCharOut ∧ a ≠ s.params.portVramAddrLo ∧ a ≠ s.params.portVramAddrHi ∧
      a ≠ s.params.portVramData ∧ a = s.params.portPresent ∧ s.routerStore a v = s.armFrame) ∨
    (s.isPort a = false ∧ s.routerStore a v = s.writeWord a v) := by
  unfold State.routerStore
  by_cases h1 : a = s.params.portCharOut
  · exact .inl ⟨h1, if_pos h1⟩
  by_cases h2 : a = s.params.portVramAddrLo
  · exact .inr (.inl ⟨h1, h2, by rw [if_neg h1, if_pos h2]⟩)
  by_cases h3 : a = s.params.portVramAddrHi
  · exact .inr (.inr (.inl ⟨h1, h2, h3, by rw [if_neg h1, if_neg h2, if_pos h3]⟩))
  by_cases h4 : a = s.params.portVramData
  · exact .inr (.inr (.inr (.inl ⟨h1, h2, h3, h4, by rw [if_neg h1, if_neg h2, if_neg h3, if_pos h4]⟩)))
  by_cases h5 : a = s.params.portPresent
  · exact .inr (.inr (.inr (.inr (.inl ⟨h1, h2, h3, h4, h5, by
      rw [if_neg h1, if_neg h2, if_neg h3, if_neg h4, if_pos h5]⟩))))
  · refine .inr (.inr (.inr (.inr (.inr ⟨?_, ?_⟩))))
    · simp [State.isPort, Params.ports, h1, h2, h3, h4, h5]
    · rw [if_neg h1, if_neg h2, if_neg h3, if_neg h4, if_neg h5]

/-- A store to an address that is no port is a word store to plain memory (R68). -/
theorem State.routerStore_plain (s : State) (a v : Word) (h : s.isPort a = false) :
    s.routerStore a v = s.writeWord a v := by
  simp only [State.isPort, Params.ports, List.mem_cons, List.not_mem_nil, or_false, not_or,
    decide_eq_false_iff_not] at h
  obtain ⟨h1, h2, h3, h4, h5⟩ := h
  rw [State.routerStore, if_neg h1, if_neg h2, if_neg h3, if_neg h4, if_neg h5]

/-- A word store changes plain memory only. -/
theorem State.writeWord_eq (s : State) (a v : Word) : s.writeWord a v = { s with mem := (s.writeWord a v).mem } := rfl

/-- What every routed store leaves alone: the registers, `Z`, `pc`, the running flag, the fault record and the parameters. -/
theorem State.routerStore_core (s : State) (a v : Word) :
    (s.routerStore a v).regs = s.regs ∧ (s.routerStore a v).z = s.z ∧ (s.routerStore a v).pc = s.pc ∧
      (s.routerStore a v).running = s.running ∧ (s.routerStore a v).fault = s.fault ∧
      (s.routerStore a v).params = s.params := by
  rcases s.routerStore_cases a v with ⟨_, h⟩ | ⟨_, _, h⟩ | ⟨_, _, _, h⟩ | ⟨_, _, _, _, h⟩ | ⟨_, _, _, _, _, h⟩ | ⟨_, h⟩ <;>
    rw [h] <;> exact ⟨rfl, rfl, rfl, rfl, rfl, rfl⟩

/-- A routed store keeps both arrays canonical. -/
theorem State.routerStore_wf {s : State} (a v : Word) (hm : Memory.wf s.mem) (hv : Memory.wf s.vram) :
    Memory.wf (s.routerStore a v).mem ∧ Memory.wf (s.routerStore a v).vram := by
  rcases s.routerStore_cases a v with ⟨_, h⟩ | ⟨_, _, h⟩ | ⟨_, _, _, h⟩ | ⟨_, _, _, _, h⟩ | ⟨_, _, _, _, _, h⟩ | ⟨_, h⟩ <;>
    rw [h]
  · exact ⟨hm, hv⟩
  · exact ⟨hm, hv⟩
  · exact ⟨hm, hv⟩
  · exact ⟨hm, State.wf_writeVram _ _ hv⟩
  · exact ⟨hm, hv⟩
  · exact ⟨State.wf_writeWord _ _ hm, hv⟩

/-- Fault entry writes the fault record and clears `running`; nothing else changes (60_exceptions.md R262). -/
theorem State.raiseFault_eq (s : State) (i : Instr) (c : Cause) (o : Option FaultOperands) :
    s.raiseFault i c o =
      { s with
        fault := ⟨c, some ⟨s.pc - BitVec.ofNat 16 (instrLength i), opcodeOf i, o⟩⟩
        running := false } := rfl

/-- The end of a step leaves register 0 zero and every other register as it was (10_state.md R21). -/
theorem State.endStep_regs_get (s : State) (i : Fin 16) : s.endStep.regs[i] = if i.val = 0 then 0 else s.regs[i] := by
  simp only [State.endStep_regs, Fin.getElem_fin, Vector.getElem_set]
  by_cases h : i.val = 0
  · rw [if_pos h.symm, if_pos h]
  · rw [if_neg (Ne.symm h), if_neg h]

/-- The end of a step changes no register a program can tell from before: the read port answers the same. -/
theorem State.x_endStep (s : State) (b : Byte) : s.endStep.x b = s.x b := by
  by_cases h : 1 ≤ b.toNat ∧ b.toNat ≤ 15
  · rw [State.x_of_names _ _ h, State.x_of_names _ _ h]
    exact (s.endStep_regs_get ⟨b.toNat, by omega⟩).trans (if_neg (by simp only; omega))
  · rw [State.x_of_not_names _ _ h, State.x_of_not_names _ _ h]

/-- The loader writes plain memory only (50_interfaces.md R234). -/
theorem State.loadBytes_eq (s : State) (a : Word) (bs : List Byte) :
    s.loadBytes a bs = { s with mem := (s.loadBytes a bs).mem } := by
  induction bs generalizing s a with
  | nil => rfl
  | cons b bs ih => rw [State.loadBytes, ih]; rfl

end Sys2Proof.Machine
end

