-- ==== Sys2Proof/Laws/Fetch.lean ====
section
/-! SUPPORT. Decoding, encoding and the fetch of one instruction: the three views of the opcode map agree. -/

namespace Sys2Proof.Machine

/-- What a shape makes of its operands is an instruction of the shape's format, with the opcode byte it was found under,
and well formed. -/
theorem shapeOf_spec (op : Byte) :
    match shapeOf op with
    | .n i => formatOf i = .n ∧ opcodeOf i = op ∧ i.wellFormed = true
    | .r f => ∀ r, formatOf (f r) = .r ∧ opcodeOf (f r) = op ∧ (f r).wellFormed = true
    | .ri f => ∀ r b, formatOf (f r b) = .ri ∧ opcodeOf (f r b) = op ∧ (f r b).wellFormed = true
    | .rr f => ∀ r b, formatOf (f r b) = .rr ∧ opcodeOf (f r b) = op ∧ (f r b).wellFormed = true
    | .a f => ∀ w, formatOf (f w) = .a ∧ opcodeOf (f w) = op ∧ (f w).wellFormed = true
    | .ra f => ∀ r w, formatOf (f r w) = .ra ∧ opcodeOf (f r w) = op ∧ (f r w).wellFormed = true := by
  generalize hsh : shapeOf op = sh
  unfold shapeOf at hsh
  split at hsh
  case h_25 =>
    subst hsh
    refine ⟨rfl, rfl, ?_⟩
    have := op.isLt
    simp only [Instr.wellFormed, illegalOpcode, Bool.and_eq_true, decide_eq_true_eq]
    constructor
    · by_contra hlt
      have : op.toNat < 0x17 := by omega
      interval_cases op.toNat <;> simp_all
    · by_contra hgt
      have : op.toNat = 0xFF := by omega
      simp_all
  all_goals
    subst hsh
    rename_i h
    have hop : op = BitVec.ofNat 8 op.toNat := by simp
    rw [h] at hop
    first
      | exact ⟨rfl, hop.symm, rfl⟩
      | exact fun _ => ⟨rfl, hop.symm, rfl⟩
      | exact fun _ _ => ⟨rfl, hop.symm, rfl⟩

/-- The rule of the fetched instruction runs with `pc` past the instruction and everything else as it was (R27). -/
theorem State.fetchInstr_state (s : State) :
    s.fetchInstr.2 = s.setPc (s.pc + BitVec.ofNat 16 (instrLength s.fetchInstr.1)) := by
  have h := shapeOf_spec s.fetch8.1
  unfold State.fetchInstr
  dsimp only
  generalize shapeOf s.fetch8.1 = sh at h
  cases sh <;>
    simp only [instrLength, h, Format.length, State.fetch8, State.fetch16, State.setPc] <;>
    simp [BitVec.add_assoc]

/-- The fetched instruction is well formed. -/
theorem State.fetchInstr_wellFormed (s : State) : s.fetchInstr.1.wellFormed = true := by
  have h := shapeOf_spec s.fetch8.1
  unfold State.fetchInstr
  dsimp only
  generalize shapeOf s.fetch8.1 = sh at h
  cases sh <;> simp only [h]

/-- The opcode of the fetched instruction is the byte at `pc` (R56, R90). -/
theorem State.fetchInstr_opcode (s : State) : opcodeOf s.fetchInstr.1 = s.readByte s.pc := by
  have h := shapeOf_spec s.fetch8.1
  unfold State.fetchInstr
  dsimp only
  generalize shapeOf s.fetch8.1 = sh at h
  cases sh <;> simp only [h] <;> rfl

/-- Fetching is decoding the bytes at `pc`. -/
theorem State.decode_bytesAt (s : State) :
    ∃ rest, decode (s.bytesAt s.pc 4) = .ok (s.fetchInstr.1, rest) := by
  unfold State.fetchInstr decode
  simp only [State.bytesAt, State.fetch8, State.fetch16]
  generalize shapeOf (s.readByte s.pc) = sh
  cases sh <;> exact ⟨_, rfl⟩

end Sys2Proof.Machine
end

