-- ==== Sys2Proof/Laws/Exec.lean ====
section
/-! SUPPORT. One equation per meaning over the shared operations, and what an execute phase can do as a whole. -/

namespace Sys2Proof.Machine

/-! ## Equations -/

theorem exec_nop (s : State) : exec .nop s = .next s := rfl
theorem exec_ldi (r imm8 : Byte) (s : State) : exec (.ldi r imm8) s = .next (s.writeResult r (zext16 imm8)) := rfl
theorem exec_lui (r imm8 : Byte) (s : State) :
    exec (.lui r imm8) s = .next (s.writeResult r (joinBytes imm8 (loByte (s.x r)))) := rfl
theorem exec_mov (r1 r2 : Byte) (s : State) : exec (.mov r1 r2) s = .next (s.writeResult r1 (s.x r2)) := rfl
theorem exec_inc (r : Byte) (s : State) : exec (.inc r) s = .next (s.writeResult r (s.x r + 1)) := rfl
theorem exec_cmp (r1 r2 : Byte) (s : State) :
    exec (.cmp r1 r2) s = .next (s.setZ (equalFlag (s.x r1) (s.x r2))) := rfl
theorem exec_jmp (addr : Word) (s : State) : exec (.jmp addr) s = .next (s.setPc addr) := rfl
theorem exec_jz (addr : Word) (s : State) : exec (.jz addr) s = .next (s.jumpIf s.z addr) := rfl
theorem exec_jnz (addr : Word) (s : State) : exec (.jnz addr) s = .next (s.jumpIf (!s.z) addr) := rfl
theorem exec_jmpr (r : Byte) (s : State) : exec (.jmpr r) s = .next (s.setPc (s.x r)) := rfl
theorem exec_jzr (r : Byte) (s : State) : exec (.jzr r) s = .next (s.jumpIf s.z (s.x r)) := rfl
theorem exec_jnzr (r : Byte) (s : State) : exec (.jnzr r) s = .next (s.jumpIf (!s.z) (s.x r)) := rfl
theorem exec_ldAbs (r : Byte) (addr : Word) (s : State) :
    exec (.ldAbs r addr) s = .next (s.writeResult r (s.readWord addr)) := rfl
theorem exec_ldReg (r1 r2 : Byte) (s : State) :
    exec (.ldReg r1 r2) s = .next (s.writeResult r1 (s.readWord (s.x r2))) := rfl
theorem exec_stAbs (r : Byte) (addr : Word) (s : State) :
    exec (.stAbs r addr) s = .next (s.routerStore addr (s.x r)) := rfl
theorem exec_stReg (r1 r2 : Byte) (s : State) :
    exec (.stReg r1 r2) s = .next (s.routerStore (s.x r2) (s.x r1)) := rfl
theorem exec_out (r : Byte) (s : State) : exec (.out r) s = .next (s.emit (.dec (s.x r))) := rfl
theorem exec_halt (s : State) : exec .halt s = .next s.halt := rfl
theorem exec_illegal (op : Byte) (s : State) :
    exec (.illegal op) s = .next (s.raiseFault (.illegal op) .unknownOpcode none) := rfl

theorem exec_add (r1 r2 : Byte) (s : State) :
    exec (.add r1 r2) s = arith (.add r1 r2) r1 r2 .addOverflow (fun a b => 0xFFFF < a + b) (fun a b => a + b) s := rfl
theorem exec_sub (r1 r2 : Byte) (s : State) :
    exec (.sub r1 r2) s = arith (.sub r1 r2) r1 r2 .subUnderflow (fun a b => a < b) (fun a b => a - b) s := rfl
theorem exec_mul (r1 r2 : Byte) (s : State) :
    exec (.mul r1 r2) s = arith (.mul r1 r2) r1 r2 .mulOverflow (fun a b => 0xFFFF < a * b) (fun a b => a * b) s := rfl
theorem exec_div (r1 r2 : Byte) (s : State) :
    exec (.div r1 r2) s = arith (.div r1 r2) r1 r2 .divByZero (fun _ b => b = 0) (fun a b => a / b) s := rfl
theorem exec_mod (r1 r2 : Byte) (s : State) :
    exec (.mod r1 r2) s = arith (.mod r1 r2) r1 r2 .modByZero (fun _ b => b = 0) (fun a b => a % b) s := rfl

/-- A store of `v` to `a`, in either form, is the routed store. -/
theorem exec_of_storeForm {i : Instr} {s : State} {a v : Word} (h : StoreForm i s a v) :
    exec i s = .next (s.routerStore a v) := by
  rcases h with ⟨r, rfl, rfl⟩ | ⟨r1, r2, rfl, rfl, rfl⟩ <;> rfl

/-- The two outcomes of a two-register arithmetic instruction: its fault, or its exact result. -/
theorem arith_eq (i : Instr) (r1 r2 : Byte) (c : Cause) (bad : Nat → Nat → Bool) (f : Nat → Nat → Nat) (s : State) :
    arith i r1 r2 c bad f s =
      if bad (s.x r1).toNat (s.x r2).toNat then .next (s.raiseFault i c (some ⟨r1, r2, s.x r1, s.x r2⟩))
      else .next (s.writeResult r1 (BitVec.ofNat 16 (f (s.x r1).toNat (s.x r2).toNat))) := rfl

/-- What a byte of plain memory reads as after a plain word store, in the terms of the statements. -/
theorem State.readByte_writeWord_eq (s : State) (a v b : Word) : (s.writeWord a v).readByte b = byteAfterStore s a v b :=
  s.readByte_writeWord a v b

/-! ## What an execute phase can do -/

/-- The whole repertoire of effects of an execute phase on `s`. -/
inductive Effect (s : State) : State → Prop where
  | unchanged : Effect s s
  | result (b : Byte) (v : Word) : Effect s (s.writeResult b v)
  | flag (b : Bool) : Effect s (s.setZ b)
  | jump (t : Word) : Effect s (s.setPc t)
  | store (a v : Word) : Effect s (s.routerStore a v)
  | text (es : List Event) : Effect s (s.emitAll es)
  | halted : Effect s s.halt
  | fault (i : Instr) (c : Cause) (o : Option FaultOperands) (hc : faultCauseOf s i = c) (hn : c ≠ .none)
      (hi : (⟨c, some ⟨s.pc - BitVec.ofNat 16 (instrLength i), opcodeOf i, o⟩⟩ : FaultRecord) =
        ⟨c, faultInfoOf s i⟩) : Effect s (s.raiseFault i c o)

/-- Every meaning's next state is one of the effects of `Effect`. -/
theorem exec_effect {i : Instr} {s t : State} (h : exec i s = .next t) : Effect s t := by
  cases i with
  | nop => cases h; exact .unchanged
  | ldi r imm8 => cases h; exact .result _ _
  | lui r imm8 => cases h; exact .result _ _
  | mov r1 r2 => cases h; exact .result _ _
  | inc r => cases h; exact .result _ _
  | ldAbs r addr => cases h; exact .result _ _
  | ldReg r1 r2 => cases h; exact .result _ _
  | cmp r1 r2 => cases h; exact .flag _
  | jmp addr => cases h; exact .jump _
  | jmpr r => cases h; exact .jump _
  | jz addr =>
    cases h; unfold State.jumpIf; split
    · exact .jump _
    · exact .unchanged
  | jnz addr =>
    cases h; unfold State.jumpIf; split
    · exact .jump _
    · exact .unchanged
  | jzr r =>
    cases h; unfold State.jumpIf; split
    · exact .jump _
    · exact .unchanged
  | jnzr r =>
    cases h; unfold State.jumpIf; split
    · exact .jump _
    · exact .unchanged
  | stAbs r addr => cases h; exact .store _ _
  | stReg r1 r2 => cases h; exact .store _ _
  | out r => cases h; exact .text _
  | prtstr addr =>
    simp only [exec, execPrtstr] at h
    split at h
    · cases h; exact .text _
    · cases h
  | halt => cases h; exact .halted
  | illegal op => cases h; exact .fault _ _ _ rfl (by simp) rfl
  | add r1 r2 =>
    rw [exec_add, arith_eq] at h
    split at h
    · next hb =>
      cases h
      exact .fault _ _ _ (if_pos (by simpa using hb)) (by simp) rfl
    · cases h; exact .result _ _
  | sub r1 r2 =>
    rw [exec_sub, arith_eq] at h
    split at h
    · next hb =>
      cases h
      exact .fault _ _ _ (if_pos (by simpa using hb)) (by simp) rfl
    · cases h; exact .result _ _
  | mul r1 r2 =>
    rw [exec_mul, arith_eq] at h
    split at h
    · next hb =>
      cases h
      exact .fault _ _ _ (if_pos (by simpa using hb)) (by simp) rfl
    · cases h; exact .result _ _
  | div r1 r2 =>
    rw [exec_div, arith_eq] at h
    split at h
    · next hb =>
      cases h
      exact .fault _ _ _ (if_pos (by simpa using hb)) (by simp) rfl
    · cases h; exact .result _ _
  | mod r1 r2 =>
    rw [exec_mod, arith_eq] at h
    split at h
    · next hb =>
      cases h
      exact .fault _ _ _ (if_pos (by simpa using hb)) (by simp) rfl
    · cases h; exact .result _ _

/-- What each effect leaves alone: the parameters, always; both arrays stay canonical. -/
theorem Effect.params {s t : State} (h : Effect s t) : t.params = s.params := by
  cases h with
  | result b v => rw [State.writeResult_eq]
  | store a v => exact (s.routerStore_core a v).2.2.2.2.2
  | _ => rfl

theorem Effect.wf {s t : State} (h : Effect s t) (hm : Memory.wf s.mem) (hv : Memory.wf s.vram) :
    Memory.wf t.mem ∧ Memory.wf t.vram := by
  cases h with
  | result b v => rw [State.writeResult_eq]; exact ⟨hm, hv⟩
  | store a v => exact State.routerStore_wf a v hm hv
  | _ => exact ⟨hm, hv⟩

end Sys2Proof.Machine
end

