-- ==== Sys2Proof/Laws/PerInstr.lean ====
section
/-! SUPPORT. Facts that hold of every instruction as syntax, one lemma per constructor. -/

/-- The encoding of the instruction begins with its opcode byte and is as long as its format says (30_encoding.md R91,
R95). -/
def Sys2Proof.Laws.EncodingShape.Statement (i : Sys2Proof.Instr) : Prop :=
  (Sys2Proof.encode i).head? = some (Sys2Proof.opcodeOf i) ∧ (Sys2Proof.encode i).length = Sys2Proof.instrLength i

namespace Sys2Proof.Laws.EncodingShape

theorem nop : Statement .nop := ⟨rfl, rfl⟩
theorem ldi (r imm8 : Byte) : Statement (.ldi r imm8) := ⟨rfl, rfl⟩
theorem lui (r imm8 : Byte) : Statement (.lui r imm8) := ⟨rfl, rfl⟩
theorem mov (r1 r2 : Byte) : Statement (.mov r1 r2) := ⟨rfl, rfl⟩
theorem add (r1 r2 : Byte) : Statement (.add r1 r2) := ⟨rfl, rfl⟩
theorem sub (r1 r2 : Byte) : Statement (.sub r1 r2) := ⟨rfl, rfl⟩
theorem mul (r1 r2 : Byte) : Statement (.mul r1 r2) := ⟨rfl, rfl⟩
theorem div (r1 r2 : Byte) : Statement (.div r1 r2) := ⟨rfl, rfl⟩
theorem mod (r1 r2 : Byte) : Statement (.mod r1 r2) := ⟨rfl, rfl⟩
theorem jmp (addr : Word) : Statement (.jmp addr) := ⟨rfl, rfl⟩
theorem jz (addr : Word) : Statement (.jz addr) := ⟨rfl, rfl⟩
theorem jnz (addr : Word) : Statement (.jnz addr) := ⟨rfl, rfl⟩
theorem jmpr (r : Byte) : Statement (.jmpr r) := ⟨rfl, rfl⟩
theorem jzr (r : Byte) : Statement (.jzr r) := ⟨rfl, rfl⟩
theorem jnzr (r : Byte) : Statement (.jnzr r) := ⟨rfl, rfl⟩
theorem cmp (r1 r2 : Byte) : Statement (.cmp r1 r2) := ⟨rfl, rfl⟩
theorem ldAbs (r : Byte) (addr : Word) : Statement (.ldAbs r addr) := ⟨rfl, rfl⟩
theorem ldReg (r1 r2 : Byte) : Statement (.ldReg r1 r2) := ⟨rfl, rfl⟩
theorem stAbs (r : Byte) (addr : Word) : Statement (.stAbs r addr) := ⟨rfl, rfl⟩
theorem stReg (r1 r2 : Byte) : Statement (.stReg r1 r2) := ⟨rfl, rfl⟩
theorem out (r : Byte) : Statement (.out r) := ⟨rfl, rfl⟩
theorem inc (r : Byte) : Statement (.inc r) := ⟨rfl, rfl⟩
theorem prtstr (addr : Word) : Statement (.prtstr addr) := ⟨rfl, rfl⟩
theorem halt : Statement .halt := ⟨rfl, rfl⟩
theorem illegal (op : Byte) : Statement (.illegal op) := ⟨rfl, rfl⟩

end Sys2Proof.Laws.EncodingShape
end

