-- ==== Sys2Proof/Laws/Step.lean ====
section
/-! SUPPORT. What one step can do. -/

namespace Sys2Proof.Machine

theorem step_halted {s : State} (h : s.running = false) : step s = .next s := by simp [step, h]

theorem step_running {s : State} (h : s.running = true) :
    step s = completeStep (exec s.fetchInstr.1 s.fetchInstr.2) := by simp [step, h]

theorem completeStep_next {o : Host.Outcome State Fault Refusal} {t : State} (h : completeStep o = .next t) :
    ∃ u, o = .next u ∧ t = u.endStep := by
  cases o with
  | next u => cases h; exact ⟨u, rfl, rfl⟩
  | fault f => cases h
  | refused r => cases h

/-- A step that answers a next state either did nothing, the CORE being halted, or ran the fetched instruction. -/
theorem step_cases {s t : State} (h : step s = .next t) :
    (s.running = false ∧ t = s) ∨
    (s.running = true ∧ ∃ u, exec s.fetchInstr.1 (s.setPc (s.pc + BitVec.ofNat 16 (instrLength s.fetchInstr.1))) = .next u ∧
      t = u.endStep) := by
  cases hr : s.running with
  | false => rw [step_halted hr] at h; cases h; exact .inl ⟨rfl, rfl⟩
  | true =>
    rw [step_running hr] at h
    obtain ⟨u, hu, rfl⟩ := completeStep_next h
    exact .inr ⟨rfl, u, by rw [← s.fetchInstr_state]; exact hu, rfl⟩

end Sys2Proof.Machine
end

