-- ==== Sys2Proof/Tests/Slice0.lean ====
section
/-! SUPPORT. The model's own tests. Words are written out from the formats of 30_encoding.md R91 and the opcode map R96, bytes in
fetch order, each bit by bit; expected results are the rows of spec/95_test_vectors.md that each test names (under the
spec's TESTCFG). At the end, one witness for every statement that has hypotheses. -/

namespace Sys2Proof.Machine.Tests

open Sys2Proof Sys2Proof.Machine

/-! ## Well-formedness: what the check refuses -/

theorem test_wellFormed_refuses_illegal_00 : Instr.wellFormed (.illegal 0x00) = false := by decide
theorem test_wellFormed_refuses_illegal_16 : Instr.wellFormed (.illegal 0x16) = false := by decide
theorem test_wellFormed_refuses_illegal_FF : Instr.wellFormed (.illegal 0xFF) = false := by decide
theorem test_wellFormed_accepts_the_ends :
    (Instr.wellFormed (.illegal 0x17) && Instr.wellFormed (.illegal 0xFE)) = true := by decide
theorem test_wellFormed_accepts_any_register_byte : Instr.wellFormed (.ldi 0xFF 0x00) = true := by decide

/-! ## Decoding: one word of every constructor, from the encoding column of spec/opcode_table.json -/

theorem test_decode_nop : decode [0b00000000] = .ok (.nop, []) := by rfl
theorem test_decode_ldi : decode [0b00000001, 0b00000011, 0b01111111] = .ok (.ldi 3 0x7F, []) := by rfl
theorem test_decode_lui : decode [0b00010011, 0b00000011, 0b00010010] = .ok (.lui 3 0x12, []) := by rfl
theorem test_decode_mov : decode [0b00000010, 0b00000100, 0b00000101] = .ok (.mov 4 5, []) := by rfl
theorem test_decode_add : decode [0b00000011, 0b00000001, 0b00000010] = .ok (.add 1 2, []) := by rfl
theorem test_decode_sub : decode [0b00000100, 0b00000001, 0b00000010] = .ok (.sub 1 2, []) := by rfl
theorem test_decode_mul : decode [0b00001110, 0b00000001, 0b00000010] = .ok (.mul 1 2, []) := by rfl
theorem test_decode_div : decode [0b00001111, 0b00000001, 0b00000010] = .ok (.div 1 2, []) := by rfl
theorem test_decode_mod : decode [0b00010000, 0b00000001, 0b00000010] = .ok (.mod 1 2, []) := by rfl
theorem test_decode_jmp : decode [0b00000101, 0b00110100, 0b00010010] = .ok (.jmp 0x1234, []) := by rfl
theorem test_decode_jz : decode [0b00000110, 0b00110100, 0b00010010] = .ok (.jz 0x1234, []) := by rfl
theorem test_decode_jnz : decode [0b00001100, 0b00110100, 0b00010010] = .ok (.jnz 0x1234, []) := by rfl
theorem test_decode_jmpr : decode [0b00010100, 0b00000001] = .ok (.jmpr 1, []) := by rfl
theorem test_decode_jzr : decode [0b00010101, 0b00000001] = .ok (.jzr 1, []) := by rfl
theorem test_decode_jnzr : decode [0b00010110, 0b11111111] = .ok (.jnzr 255, []) := by rfl
theorem test_decode_cmp : decode [0b00000111, 0b00000010, 0b00000011] = .ok (.cmp 2 3, []) := by rfl
theorem test_decode_ldAbs : decode [0b00001000, 0b00000010, 0b00000000, 0b00000001] = .ok (.ldAbs 2 0x0100, []) := by rfl
theorem test_decode_ldReg : decode [0b00010001, 0b00000100, 0b00000011] = .ok (.ldReg 4 3, []) := by rfl
theorem test_decode_stAbs : decode [0b00001001, 0b00000001, 0b00000000, 0b11111111] = .ok (.stAbs 1 0xFF00, []) := by rfl
theorem test_decode_stReg : decode [0b00010010, 0b00000001, 0b00000011] = .ok (.stReg 1 3, []) := by rfl
theorem test_decode_out : decode [0b00001010, 0b00000001] = .ok (.out 1, []) := by rfl
theorem test_decode_inc : decode [0b00001011, 0b00000010] = .ok (.inc 2, []) := by rfl
theorem test_decode_prtstr : decode [0b00001101, 0b00000000, 0b10000000] = .ok (.prtstr 0x8000, []) := by rfl
theorem test_decode_halt : decode [0b11111111] = .ok (.halt, []) := by rfl
theorem test_decode_illegal_first : decode [0b00010111] = .ok (.illegal 0x17, []) := by rfl
theorem test_decode_illegal_last : decode [0b11111110] = .ok (.illegal 0xFE, []) := by rfl

theorem test_decode_leaves_the_rest : decode [0x0A, 0x01, 0xFF] = .ok (.out 1, [0xFF]) := by rfl
theorem test_decode_refuses_no_bytes : decode [] = .error .noOpcode := by rfl
theorem test_decode_refuses_a_short_ldi : decode [0x01, 0x03] = .error (.truncated 0x01) := by rfl
theorem test_decode_refuses_a_short_st : decode [0x09, 0x01, 0x00] = .error (.truncated 0x09) := by rfl

/-! The same words numbered as the opcode table numbers bits: the first byte is bits 7 to 0. -/

theorem test_tableWord_st : decodeTableWord 32 0xFF000109 = some (.stAbs 1 0xFF00) := by decide
theorem test_tableWord_out : decodeTableWord 16 0x010A = some (.out 1) := by decide
theorem test_tableWord_zero_operands : decodeTableWord 8 0x08 = some (.ldAbs 0 0x0000) := by decide
theorem test_tableWord_illegal : decodeTableWord 8 0x17 = some (.illegal 0x17) := by decide

/-! ## One step on small states -/

/-- The reset state with a program at address 0. -/
def boot (program : List Byte) : State := State.reset.loadBytes 0x0000 program

/-- The step answers a next state, and it has the property. -/
def after (o : Host.Outcome State Fault Refusal) (p : State → Bool) : Bool :=
  match o with
  | .next t => p t
  | .fault _ => false
  | .refused _ => false

/-- V-ENC-3. -/
theorem test_nop_at_the_top : after (step ({ State.reset with pc := 0xFFFF })) (fun t => t.pc == 0x0000 && !t.z) = true := by decide
/-- V-LDI-1. -/
theorem test_ldi_clears_the_high_byte : after (step ((((boot [0x01, 0x03, 0x7F]).setX 3 0xABCD).setZ true))) (fun t => t.x 3 == 0x007F && !t.z && t.pc == 3) = true := by decide
/-- V-ENC-2. -/
theorem test_ldi_straddles_the_top : after (step ({ (State.reset.loadBytes 0xFFFE [0x01, 0x02, 0x2A]) with pc := 0xFFFE })) (fun t => t.x 2 == 0x002A && t.pc == 0x0001) = true := by decide
/-- V-LUI-1. -/
theorem test_lui_keeps_the_low_byte : after (step ((boot [0x13, 0x03, 0x12]).setX 3 0x0034)) (fun t => t.x 3 == 0x1234 && !t.z) = true := by decide
/-- R122, its example. -/
theorem test_mov_copies : after (step ((((boot [0x02, 0x04, 0x05]).setX 4 0x1111).setX 5 0x0000))) (fun t => t.x 4 == 0 && t.z) = true := by decide
/-- V-MOV-8. -/
theorem test_mov_discards_at_byte_16 : after (step ((((boot [0x02, 0x10, 0x04]).setX 4 0x0009).setZ true))) (fun t => t.x 4 == 9 && t.x 16 == 0 && !t.z) = true := by decide
/-- V-ADD-2. -/
theorem test_add_to_the_largest : after (step ((((boot [0x03, 0x01, 0x02]).setX 1 0xFFFE).setX 2 1))) (fun t => t.x 1 == 0xFFFF && t.running) = true := by decide
/-- V-FLT-2. -/
theorem test_add_overflow : after (step ({ (((State.reset.loadBytes 0x0040 [0x03, 0x01, 0x02]).setX 1 0xFFFF).setX 2 0x0001).setZ true with pc := 0x0040 })) (fun t => !t.running && t.z && t.pc == 0x0043 && t.x 1 == 0xFFFF &&
      t.fault == ⟨.addOverflow, some ⟨0x0040, 0x03, some ⟨1, 2, 0xFFFF, 0x0001⟩⟩⟩) = true := by decide
/-- V-SUB-2. -/
theorem test_sub_to_zero : after (step ((((boot [0x04, 0x01, 0x02]).setX 1 5).setX 2 5))) (fun t => t.x 1 == 0 && t.z && t.running) = true := by decide
/-- V-FLT-3. -/
theorem test_sub_underflow : after (step ({ (((State.reset.loadBytes 0x0040 [0x04, 0x01, 0x02]).setX 1 0x0002).setX 2 0x0003).setZ true with pc := 0x0040 })) (fun t => !t.running && t.z && t.pc == 0x0043 && t.x 1 == 0x0002 &&
      t.fault == ⟨.subUnderflow, some ⟨0x0040, 0x04, some ⟨1, 2, 0x0002, 0x0003⟩⟩⟩) = true := by decide
/-- V-MUL-2. -/
theorem test_mul_to_the_largest : after (step ((((boot [0x0E, 0x01, 0x02]).setX 1 0x00FF).setX 2 0x0101))) (fun t => t.x 1 == 0xFFFF && t.running) = true := by decide
/-- V-FLT-4. -/
theorem test_mul_overflow : after (step ({ (((State.reset.loadBytes 0x0040 [0x0E, 0x01, 0x02]).setX 1 0x0100).setX 2 0x0100).setZ true with pc := 0x0040 })) (fun t => !t.running && t.z && t.pc == 0x0043 && t.x 1 == 0x0100 &&
      t.fault == ⟨.mulOverflow, some ⟨0x0040, 0x0E, some ⟨1, 2, 0x0100, 0x0100⟩⟩⟩) = true := by decide
/-- V-DIV-10. -/
theorem test_div_is_unsigned : after (step ((((boot [0x0F, 0x01, 0x02]).setX 1 0xFFFF).setX 2 2))) (fun t => t.x 1 == 0x7FFF && !t.z) = true := by decide
/-- V-FLT-5. -/
theorem test_div_by_zero : after (step ({ (((State.reset.loadBytes 0x0040 [0x0F, 0x01, 0x02]).setX 1 0x0011).setX 2 0x0000).setZ true with pc := 0x0040 })) (fun t => !t.running && t.z && t.pc == 0x0043 && t.x 1 == 0x0011 &&
      t.fault == ⟨.divByZero, some ⟨0x0040, 0x0F, some ⟨1, 2, 0x0011, 0x0000⟩⟩⟩) = true := by decide
/-- V-MOD-3. -/
theorem test_mod_below_the_divisor : after (step ((((boot [0x10, 0x01, 0x02]).setX 1 5).setX 2 0x11))) (fun t => t.x 1 == 5 && !t.z) = true := by decide
/-- V-FLT-6. -/
theorem test_mod_by_zero : after (step ({ (((State.reset.loadBytes 0x0040 [0x10, 0x01, 0x02]).setX 1 0x0011).setX 2 0x0000).setZ true with pc := 0x0040 })) (fun t => !t.running && t.z && t.pc == 0x0043 && t.x 1 == 0x0011 &&
      t.fault == ⟨.modByZero, some ⟨0x0040, 0x10, some ⟨1, 2, 0x0011, 0x0000⟩⟩⟩) = true := by decide
/-- V-INC-2. -/
theorem test_inc_wraps : after (step ((boot [0x0B, 0x02]).setX 2 0xFFFF)) (fun t => t.x 2 == 0 && t.z && t.running) = true := by decide
/-- V-INC-4. -/
theorem test_inc_of_r0 : after (step ((boot [0x0B, 0x00]).setZ true)) (fun t => t.x 0 == 0 && !t.z && t.pc == 2) = true := by decide
/-- V-CMP-1. -/
theorem test_cmp_equal : after (step ((((boot [0x07, 0x02, 0x03]).setX 2 5).setX 3 5))) (fun t => t.z && t.pc == 3) = true := by decide
/-- V-CMP-2. -/
theorem test_cmp_unequal : after (step (((((boot [0x07, 0x02, 0x03]).setX 2 5).setX 3 6).setZ true))) (fun t => !t.z && t.x 2 == 5) = true := by decide
/-- V-ENC-1. -/
theorem test_jmp : after (step (boot [0x05, 0x34, 0x12])) (fun t => t.pc == 0x1234) = true := by decide
/-- V-JZ-1. -/
theorem test_jz_taken : after (step ({ (State.reset.loadBytes 0x0020 [0x06, 0x10, 0x00]).setZ true with pc := 0x0020 })) (fun t => t.pc == 0x0010 && t.z) = true := by decide
/-- V-JZ-2. -/
theorem test_jz_not_taken : after (step ({ (State.reset.loadBytes 0x0020 [0x06, 0x10, 0x00]) with pc := 0x0020 })) (fun t => t.pc == 0x0023) = true := by decide
/-- V-JNZ-1. -/
theorem test_jnz_taken : after (step ({ (State.reset.loadBytes 0x0011 [0x0C, 0x09, 0x00]) with pc := 0x0011 })) (fun t => t.pc == 0x0009) = true := by decide
/-- V-JNZ-2. -/
theorem test_jnz_not_taken : after (step ({ (State.reset.loadBytes 0x0011 [0x0C, 0x09, 0x00]).setZ true with pc := 0x0011 })) (fun t => t.pc == 0x0014) = true := by decide
/-- V-JMPR-1. -/
theorem test_jmpr : after (step ((boot [0x14, 0x01]).setX 1 0x000A)) (fun t => t.pc == 0x000A) = true := by decide
/-- V-JMPR-3. -/
theorem test_jmpr_out_of_range : after (step ({ (State.reset.loadBytes 0x0050 [0x14, 0x63]) with pc := 0x0050 })) (fun t => t.pc == 0x0000) = true := by decide
/-- V-JZR-1. -/
theorem test_jzr_taken : after (step ({ (State.reset.loadBytes 0x000D [0x15, 0x01]).setX 1 0x000A |>.setZ true with pc := 0x000D })) (fun t => t.pc == 0x000A) = true := by decide
/-- V-JZR-2. -/
theorem test_jzr_not_taken : after (step ({ (State.reset.loadBytes 0x000D [0x15, 0x01]).setX 1 0x000A with pc := 0x000D })) (fun t => t.pc == 0x000F) = true := by decide
/-- V-JNZR-1. -/
theorem test_jnzr_taken : after (step ({ (State.reset.loadBytes 0x0040 [0x16, 0x02]).setX 2 0x0100 with pc := 0x0040 })) (fun t => t.pc == 0x0100) = true := by decide
/-- V-JNZR-2. -/
theorem test_jnzr_not_taken : after (step ({ (State.reset.loadBytes 0x0040 [0x16, 0x02]).setX 2 0x0100 |>.setZ true with pc := 0x0040 })) (fun t => t.pc == 0x0042) = true := by decide
/-- V-LD-6. -/
theorem test_ld_at_a_port : after (step ((boot [0x08, 0x02, 0x00, 0xFF]).loadBytes 0xFF00 [0xAA, 0xBB])) (fun t => t.x 2 == 0xBBAA && t.trace == []) = true := by decide
/-- V-LD-4. -/
theorem test_ld_at_the_top : after (step ({ ((State.reset.loadBytes 0x0100 [0x08, 0x02, 0xFF, 0xFF]).loadBytes 0xFFFF [0x34, 0x12]) with pc := 0x0100 })) (fun t => t.x 2 == 0x1234) = true := by decide
/-- V-LD-9. -/
theorem test_ld_register_over_its_address : after (step ((((boot [0x11, 0x03, 0x03]).loadBytes 0x0200 [0xCD, 0xAB]).setX 3 0x0200))) (fun t => t.x 3 == 0xABCD) = true := by decide
/-- V-ST-3. -/
theorem test_st_at_the_top : after (step ({ (State.reset.loadBytes 0x0100 [0x09, 0x01, 0xFF, 0xFF]).setX 1 0xABCD with pc := 0x0100 })) (fun t => t.readByte 0xFFFF == 0xCD && t.readByte 0x0000 == 0xAB) = true := by decide
/-- V-RT-11. -/
theorem test_st_below_a_port : after (step ((boot [0x09, 0x01, 0xFF, 0xFE]).setX 1 0x4241)) (fun t => t.readByte 0xFEFF == 0x41 && t.readByte 0xFF00 == 0x42 && t.trace == []) = true := by decide
/-- V-ST-7. -/
theorem test_st_register : after (step ((((boot [0x12, 0x01, 0x03]).setX 1 0x1234).setX 3 0x0200))) (fun t => t.readByte 0x0200 == 0x34 && t.readByte 0x0201 == 0x12) = true := by decide
/-- V-ST-10. -/
theorem test_st_register_reaches_a_port : after (step ((((boot [0x12, 0x01, 0x02]).setX 1 0x0041).setX 2 0xFF00))) (fun t => t.trace == [.char 0x41] && t.readByte 0xFF00 == 0) = true := by decide
/-- V-OUT-3. -/
theorem test_out_is_unsigned : after (step ((boot [0x0A, 0x01]).setX 1 0xFFFF)) (fun t => t.trace == [.dec 65535] && t.text == [0x36, 0x35, 0x35, 0x33, 0x35]) = true := by decide
/-- V-OUT-7. -/
theorem test_out_keeps_inner_zeros : after (step ((boot [0x0A, 0x01]).setX 1 0x0064)) (fun t => t.text == [0x31, 0x30, 0x30]) = true := by decide
/-- V-PRT-1. -/
theorem test_prtstr : after (step ((boot [0x0D, 0x00, 0x80]).loadBytes 0x8000 [0x48, 0x49, 0x00])) (fun t => t.trace == [.char 0x48, .char 0x49] && t.pc == 3) = true := by decide
/-- V-PRT-3. -/
theorem test_prtstr_wraps : after (step ({ ((State.reset.loadBytes 0x0100 [0x0D, 0xFE, 0xFF]).loadBytes 0xFFFE [0x41, 0x42, 0x43, 0x00]) with pc := 0x0100 })) (fun t => t.trace == [.char 0x41, .char 0x42, .char 0x43]) = true := by decide
/-- V-HALT-1. -/
theorem test_halt_is_clean : after (step ({ (State.reset.loadBytes 0x000B [0xFF]).setZ true with pc := 0x000B })) (fun t => t.cleanHalt && t.z && t.pc == 0x000C) = true := by decide
/-- V-UNK-1. -/
theorem test_unknown_opcode : after (step ({ (State.reset.loadBytes 0x0019 [0x17]) with pc := 0x0019 })) (fun t => t.faultHalt && t.pc == 0x001A && t.fault == ⟨.unknownOpcode, some ⟨0x0019, 0x17, none⟩⟩) = true := by decide
/-- V-UNK-2. -/
theorem test_unknown_opcode_fetches_no_operands : after (step (boot [0xFE, 0x01, 0x02])) (fun t => t.faultHalt && t.pc == 0x0001 && t.x 1 == 0) = true := by decide
/-- V-HALT-2, its second step. -/
theorem test_halted_does_nothing : after (step ((boot [0x01, 0x01, 0x05]).halt)) (fun t => t == (boot [0x01, 0x01, 0x05]).halt) = true := by decide

/-! ## The ports (20_memory.md R63 to R67) -/

/-- V-RT-3. -/
theorem test_port_cursor_low :
    (({ State.reset with vramCursor := 0xABCD } : State).routerStore 0xFF01 0x1234).vramCursor = 0xAB34 := by decide
/-- V-RT-4. -/
theorem test_port_cursor_high :
    (({ State.reset with vramCursor := 0xABCD } : State).routerStore 0xFF02 0x1234).vramCursor = 0x34CD := by decide
/-- V-RT-6. -/
theorem test_port_vram_data :
    (let t := ({ State.reset with vramCursor := 0x0102 } : State).routerStore 0xFF03 0x5507
     t.vramByte 0x0102 == 0x07 && t.vramCursor == 0x0102 && t.displayCalls == [(0x0102, 0x07)] && t.mem == []) = true := by
  decide
/-- V-RT-9. -/
theorem test_port_present :
    (let t := State.reset.routerStore 0xFF04 0xFFFF
     t.frameReady && t.mem == [] && t.trace == []) = true := by decide

/-! ## Memory, reset, the host -/

/-- Writing what an unlisted address reads as removes the cell. -/
theorem test_memory_canonical : Memory.write (Memory.write [] 5 1) 5 0 = [] := by decide
theorem test_memory_sorted : Memory.write (Memory.write [] 7 1) 3 2 = [(3, 2), (7, 1)] := by decide
/-- V-RST-2. -/
theorem test_reset_clears_the_fault :
    (boot [0x17]).hostReset = State.reset ∧ after (step (boot [0x17])) (fun t => t.hostReset == State.reset) = true := by
  decide
/-- V-HOST-1. -/
theorem test_frame_ack : (State.reset.armFrame).ackFrame = State.reset := by decide
/-- R261, the numbers of the causes. -/
theorem test_cause_codes :
    [Cause.none, .unknownOpcode, .addOverflow, .subUnderflow, .mulOverflow, .divByZero, .modByZero].map Cause.code =
      [0, 1, 2, 3, 4, 5, 6] := by decide
/-- R237, its example. -/
theorem test_text_of_a_trace :
    ({ State.reset with trace := [.char 0x48, .char 0x49, .dec 8] } : State).text = [0x48, 0x49, 0x38] := by decide
/-- R306: a program and a text blob. -/
theorem test_launch :
    (let s := State.launch launchParams [0x0D, 0x00, 0x80] [0x48, 0x49, 0x00] defaultTextBase
     s.mem == [(0, 0x0D), (2, 0x80), (0x8000, 0x48), (0x8001, 0x49)]) = true := by decide
theorem test_loader_before_the_first_step :
    (legalMoves false [.load 0 [0xFF], .stepEn, .frameAck, .reset, .load 0 [0xFF]] &&
      !legalMoves false [.stepEn, .load 0 [0xFF]]) = true := by decide
/-- The host's placement of a table word: the very next step runs it. -/
theorem test_withFetchWord :
    after (step (State.reset.withFetchWord 32 0x12340301)) (fun t => t.x 3 == 0x34 && t.pc == 3) = true := by decide
theorem test_withFetchWord_halted :
    after (step (State.reset.halt.withFetchWord 8 0x0B)) (fun t => t.pc == 2) = true := by decide

/-! ## Witnesses: each statement's hypotheses are met, clause by clause -/

/-- Memory in which addresses `a` to `a + n - 1` hold 0x0D and the others 0. -/
def block : Nat → Nat → Memory
  | 0, _ => []
  | n + 1, a => (a, 0x0D) :: block n (a + 1)

theorem read_block (n a b : Nat) : Memory.read (block n a) b = if a ≤ b ∧ b < a + n then 0x0D else 0x00 := by
  induction n generalizing a with
  | zero => rw [if_neg (by omega)]; rfl
  | succ n ih =>
    show (if a = b then 0x0D else Memory.read (block n (a + 1)) b) = _
    by_cases h : a = b
    · rw [if_pos h, if_pos (by omega)]
    · rw [if_neg h, ih]
      exact if_congr (by omega) rfl rfl

/-- A running CORE whose whole memory is non-zero: at `pc` stands PRTSTR. -/
def noZero : State := { State.reset with mem := block 65536 0 }

/-- The same but for the last byte, which is zero. -/
def zeroAtTheTop : State := { State.reset with mem := block 65535 0 }

theorem noZero_readByte (a : Word) : noZero.readByte a = 0x0D := by
  have h := a.isLt
  show Memory.read (block 65536 0) a.toNat = _
  rw [read_block, if_pos (by omega)]

theorem zeroAtTheTop_readByte (a : Word) : zeroAtTheTop.readByte a = if a.toNat < 65535 then 0x0D else 0x00 := by
  show Memory.read (block 65535 0) a.toNat = _
  rw [read_block]
  exact if_congr (by omega) rfl rfl

/-- Values in registers 1 and 2, over a program at 0. -/
def two (program : List Byte) (a b : Word) : State := ((boot program).setX 1 a).setX 2 b

/-- The state a step answers, or the given one. -/
def next (s : State) : State :=
  match step s with
  | .next t => t
  | .fault _ => s
  | .refused _ => s

theorem witness_DecodeOfEncodeGivesTheInstruction :
    Instr.wellFormed (.illegal 0x17) = true ∧ Instr.wellFormed (.stAbs 255 0xFFFF) = true := by decide
theorem witness_DecodeConsumesExactlyTheEncoding : decode [0xFE, 0x01] = .ok (.illegal 0xFE, [0x01]) := by rfl
theorem witness_OpcodeByteAloneFixesTheLength :
    lengthByOpcode 0x08 ≤ [(1 : Byte), 2, 3].length + 1 ∧ [(1 : Byte), 2].length + 1 < lengthByOpcode 0x08 ∧
      lengthByOpcode 0xFE ≤ ([] : List Byte).length + 1 := by decide
theorem witness_UndefinedOpcodesRaiseUnknownOpcode :
    (0x17 ≤ (0x17 : Byte).toNat ∧ (0x17 : Byte).toNat ≤ 0xFE) ∧ (0x17 ≤ (0xFE : Byte).toNat ∧ (0xFE : Byte).toNat ≤ 0xFE) := by
  decide

theorem witness_StepRunsTheDecodedInstruction :
    ∃ (s : State) (i : Instr) (rest : List Byte) (t : State), s.running = true ∧ decode (s.bytesAt s.pc 4) = .ok (i, rest) ∧
      exec i { s with pc := s.pc + BitVec.ofNat 16 (encode i).length } = .next t :=
  ⟨boot [0x0B, 0x01], .inc 1, [0x00, 0x00], _, rfl, rfl, rfl⟩
theorem witness_StepRunsTheDecodedInstruction_hang :
    ∃ rest, noZero.running = true ∧ decode (noZero.bytesAt noZero.pc 4) = .ok (.prtstr 0x0D0D, rest) ∧
      ∀ a : Word, noZero.readByte a ≠ 0 := by
  refine ⟨[0x0D], rfl, ?_, fun a => by rw [noZero_readByte]; decide⟩
  simp only [State.bytesAt, noZero_readByte]
  rfl
theorem witness_StepAlwaysAnswersButForPrtstrHang :
    noZero.running = true ∧ noZero.readByte noZero.pc = 0x0D ∧ ∀ a : Word, noZero.readByte a ≠ 0 :=
  ⟨rfl, noZero_readByte _, fun a => by rw [noZero_readByte]; decide⟩

theorem witness_PcIsSequentialButForTakenJumps :
    ∃ (s : State) (rest : List Byte) (t : State), s.running = true ∧ decode (s.bytesAt s.pc 4) = .ok (.jmp 0x1234, rest) ∧ step s = .next t ∧
      jumpTarget s (.jmp 0x1234) = some 0x1234 :=
  ⟨boot [0x05, 0x34, 0x12], [0x00], _, rfl, rfl, rfl, rfl⟩
theorem witness_PcIsSequentialButForTakenJumps_untaken :
    ∃ (s : State) (rest : List Byte) (t : State), s.running = true ∧ decode (s.bytesAt s.pc 4) = .ok (.jz 0x1234, rest) ∧ step s = .next t ∧
      jumpTarget s (.jz 0x1234) = none :=
  ⟨boot [0x06, 0x34, 0x12], [0x00], _, rfl, rfl, rfl, rfl⟩
/-- A two-byte instruction over the top of memory. -/
theorem witness_StoredCodeIsExecuted :
    ∃ (s t : State) (rest : List Byte), StoreForm (.stAbs 1 0xFFFF) s 0xFFFF 0x020B ∧ s.isPort 0xFFFF = false ∧
      s.running = true ∧ exec (.stAbs 1 0xFFFF) s = .next t ∧
      decode [byteAfterStore s 0xFFFF 0x020B 0xFFFF, byteAfterStore s 0xFFFF 0x020B (0xFFFF + 1),
        byteAfterStore s 0xFFFF 0x020B (0xFFFF + 2), byteAfterStore s 0xFFFF 0x020B (0xFFFF + 3)] = .ok (.inc 2, rest) :=
  ⟨two [] 0x020B 0, _, [0x00, 0x00], .inl ⟨1, rfl, by decide⟩, by decide, rfl, rfl, rfl⟩
/-- A one-byte instruction, and one of four bytes of which the store wrote the middle two. -/
theorem witness_StoredCodeIsExecuted_other_lengths :
    ∃ (s : State) (rest : List Byte),
      StoreForm (.stReg 1 2) s 0x0100 0x00FF ∧ s.isPort 0x0100 = false ∧ s.running = true ∧
      decode [byteAfterStore s 0x0100 0x00FF 0x0100, byteAfterStore s 0x0100 0x00FF (0x0100 + 1),
        byteAfterStore s 0x0100 0x00FF (0x0100 + 2), byteAfterStore s 0x0100 0x00FF (0x0100 + 3)] = .ok (.halt, rest) ∧
      decode [byteAfterStore s 0x0100 0x00FF 0x00FF, byteAfterStore s 0x0100 0x00FF (0x00FF + 1),
        byteAfterStore s 0x0100 0x00FF (0x00FF + 2), byteAfterStore s 0x0100 0x00FF (0x00FF + 3)] =
          .ok (.stAbs 0xFF 0x1200, []) :=
  ⟨(two [] 0x00FF 0x0100).loadBytes 0x00FF [0x09, 0x55, 0x66, 0x12], [0x00, 0x12, 0x00],
    .inr ⟨1, 2, rfl, by decide, by decide⟩, by decide, rfl, rfl, rfl⟩

theorem witness_ResetSatisfiesTheInvariant : launchParams.PortsDistinct := by decide
theorem witness_StepKeepsTheInvariant : ∃ t, State.reset.Inv ∧ step State.reset = .next t :=
  ⟨_, by decide, rfl⟩
theorem witness_HostRunsKeepTheInvariant :
    ∃ t, State.reset.Inv ∧ applyMoves [.load 0 [0xFF], .stepEn, .frameAck, .reset] State.reset = .next t :=
  ⟨_, by decide, rfl⟩
theorem witness_CanonicalMemoriesAreExtensional :
    Memory.wf (Memory.write (Memory.write [] 7 1) 0xFFFF 2) ∧
      Memory.write (Memory.write [] 7 1) 0xFFFF 2 = Memory.write (Memory.write [] 0xFFFF 2) 7 1 := by decide

theorem witness_RegisterZeroIsZeroAfterEveryInstruction :
    ∃ t, (boot [0x17]).running = true ∧ step (boot [0x17]) = .next t ∧ t.running = false := ⟨_, rfl, rfl, rfl⟩
theorem witness_RegisterReadPort :
    ((1 : Byte).toNat = (1 : Fin 16).val ∧ (15 : Byte).toNat = (15 : Fin 16).val) ∧ 16 ≤ (16 : Byte).toNat ∧
      16 ≤ (255 : Byte).toNat := by decide
theorem witness_RegisterWritePort :
    NamesRegister 1 ∧ NamesRegister 15 ∧ ¬NamesRegister 0 ∧ ¬NamesRegister 16 ∧
      ∃ t, exec (.ldi 15 1) State.reset = .next t := ⟨by decide, by decide, by decide, by decide, _, rfl⟩
theorem witness_InstructionsThatNeverChangeZ :
    ∃ t, keepsZ (.illegal 0x17) = true ∧ exec (.illegal 0x17) (State.reset.setZ true) = .next t := ⟨_, rfl, rfl⟩

theorem witness_RunningClearedOnlyByHaltOrFault :
    ∃ rest t, (boot [0xFF]).running = true ∧ decode ((boot [0xFF]).bytesAt 0 4) = .ok (.halt, rest) ∧
      step (boot [0xFF]) = .next t := ⟨[0x00, 0x00, 0x00], _, rfl, rfl, rfl⟩
theorem witness_RunningClearedOnlyByHaltOrFault_reset :
    ∃ t, State.reset.halt.running = false ∧ applyMove .reset State.reset.halt = .next t ∧ t.running = true :=
  ⟨_, rfl, rfl, rfl⟩
theorem witness_FatalFaultListIsClosed :
    faultCauseOf (two [] 0xFFFF 1) (.add 1 2) = .addOverflow ∧ faultCauseOf (two [] 0xFFFE 1) (.add 1 2) = .none ∧
      faultCauseOf (two [] 1 2) (.sub 1 2) = .subUnderflow ∧ faultCauseOf (two [] 2 2) (.sub 1 2) = .none ∧
      faultCauseOf (two [] 0x100 0x100) (.mul 1 2) = .mulOverflow ∧ faultCauseOf (two [] 0xFF 0x101) (.mul 1 2) = .none ∧
      faultCauseOf (two [] 0 0) (.div 1 2) = .divByZero ∧ faultCauseOf (two [] 0 1) (.div 1 2) = .none ∧
      faultCauseOf (two [] 0 0) (.mod 1 2) = .modByZero ∧ faultCauseOf (two [] 0 1) (.mod 1 2) = .none := by decide
theorem witness_FaultEntryChangesOnlyFaultAndRunning :
    faultCauseOf (two [] 0 1) (.sub 0 2) ≠ .none ∧ faultCauseOf (two [] 0 1) (.div 1 16) ≠ .none ∧
      faultCauseOf State.reset (.illegal 0x17) ≠ .none := by decide
theorem witness_FaultIsFinalUntilReset :
    (next (boot [0x17])).Inv ∧ (next (boot [0x17])).fault.cause ≠ .none ∧
      ∀ m ∈ [HostMove.stepEn, .frameAck, .load 0 [0x00]], m ≠ .reset := by decide
theorem witness_HaltStopsTheCoreForGood :
    (boot [0xFF]).Inv ∧ (boot [0xFF]).running = true ∧ (boot [0xFF]).readByte (boot [0xFF]).pc = 0xFF := by decide
theorem witness_NopChangesNothing :
    State.reset.Inv ∧ State.reset.running = true ∧ State.reset.readByte State.reset.pc = 0x00 := by decide

/-- The results are about register bytes 1 to 15; both ends, and bytes that name none. -/
theorem witness_NamesRegister : NamesRegister 1 ∧ NamesRegister 15 ∧ ¬NamesRegister 0 ∧ ¬NamesRegister 16 := by decide
theorem witness_AddGivesTheExactSum :
    NamesRegister 1 ∧ ((two [] 0xFFFE 1).x 1).toNat + ((two [] 0xFFFE 1).x 2).toNat ≤ 65535 := by decide
theorem witness_SubGivesTheExactDifference :
    NamesRegister 1 ∧ ((two [] 7 7).x 2).toNat ≤ ((two [] 7 7).x 1).toNat := by decide
theorem witness_MulGivesTheExactProduct :
    NamesRegister 1 ∧ ((two [] 0xFF 0x101).x 1).toNat * ((two [] 0xFF 0x101).x 2).toNat ≤ 65535 := by decide
theorem witness_DivGivesTheTruncatedQuotient : NamesRegister 1 ∧ 0 < ((two [] 0xFFFF 1).x 2).toNat := by decide
theorem witness_ModGivesTheRemainderOfDiv : NamesRegister 1 ∧ 0 < ((two [] 0xFFFF 0x8000).x 2).toNat := by decide
theorem witness_AddThenSubRestores :
    NamesRegister 1 ∧ (1 : Byte) ≠ 2 ∧ ((two [] 0xFFFE 1).x 1).toNat + ((two [] 0xFFFE 1).x 2).toNat ≤ 65535 := by decide
theorem witness_AddThenSubRestores_same :
    NamesRegister 1 ∧ ((two [] 0x7FFF 0).x 1).toNat + ((two [] 0x7FFF 0).x 1).toNat ≤ 65535 := by decide
theorem witness_AddThenSubRestores_unwritable :
    ¬NamesRegister 0 ∧ ((two [] 0 0xFFFF).x 0).toNat + ((two [] 0 0xFFFF).x 2).toNat ≤ 65535 ∧
      0 < ((two [] 0 0xFFFF).x 2).toNat ∧ ((two [] 0 0).x 2).toNat = 0 := by decide

theorem witness_ConditionalJumps : State.reset.z = false ∧ (State.reset.setZ true).z = true := by decide
theorem witness_JmprJumpsToTheRegister :
    (1 ≤ (15 : Fin 16).val ∧ (15 : Byte).toNat = (15 : Fin 16).val) ∧ ¬NamesRegister 16 := by decide

theorem witness_LoadsReadPlainMemory :
    ((Instr.ldAbs 2 0xFFFF = .ldAbs 2 0xFFFF) ∨ ∃ r2, Instr.ldAbs 2 0xFFFF = .ldReg 2 r2 ∧ (0xFFFF : Word) = State.reset.x r2) ∧
      ∃ r2, Instr.ldReg 2 1 = .ldReg 2 r2 ∧ (0xFF00 : Word) = (two [] 0xFF00 0).x r2 :=
  ⟨.inl rfl, 1, rfl, by decide⟩
theorem witness_PlainStoresWriteTwoBytes :
    StoreForm (.stAbs 1 0xFEFF) (two [] 0x4241 0) 0xFEFF 0x4241 ∧ (two [] 0x4241 0).isPort 0xFEFF = false :=
  ⟨.inl ⟨1, rfl, by decide⟩, by decide⟩
theorem witness_PlainStoresWriteTwoBytes_register :
    StoreForm (.stReg 1 2) (two [] 0x4241 0xFFFF) 0xFFFF 0x4241 ∧ (two [] 0x4241 0xFFFF).isPort 0xFFFF = false :=
  ⟨.inr ⟨1, 2, rfl, by decide, by decide⟩, by decide⟩
theorem witness_CharacterPortEmitsTheLowByte :
    StoreForm (.stReg 1 2) (two [] 0x1241 0xFF00) (two [] 0x1241 0xFF00).params.portCharOut 0x1241 :=
  .inr ⟨1, 2, rfl, by decide, by decide⟩
theorem witness_CursorPortsReplaceOneByte :
    (two [] 0x1234 0).params.PortsDistinct ∧
      StoreForm (.stAbs 1 0xFF01) (two [] 0x1234 0) (two [] 0x1234 0).params.portVramAddrLo 0x1234 ∧
      StoreForm (.stAbs 1 0xFF02) (two [] 0x1234 0) (two [] 0x1234 0).params.portVramAddrHi 0x1234 :=
  ⟨by decide, .inl ⟨1, by decide, by decide⟩, .inl ⟨1, by decide, by decide⟩⟩
theorem witness_VramDataPortWritesAtTheCursor :
    (two [] 0x5507 0).params.PortsDistinct ∧
      StoreForm (.stAbs 1 0xFF03) (two [] 0x5507 0) (two [] 0x5507 0).params.portVramData 0x5507 :=
  ⟨by decide, .inl ⟨1, by decide, by decide⟩⟩
theorem witness_PresentPortArmsTheFrameFlag :
    (two [] 0xFFFF 0).params.PortsDistinct ∧
      StoreForm (.stAbs 1 0xFF04) (two [] 0xFFFF 0) (two [] 0xFFFF 0).params.portPresent 0xFFFF :=
  ⟨by decide, .inl ⟨1, by decide, by decide⟩⟩
theorem witness_VramWriteSequence :
    ∃ s s1 s2 s3 : State, s.params.PortsDistinct ∧
      (StoreForm (.stAbs 1 0xFF01) s s.params.portVramAddrLo 0x0034 ∧
        StoreForm (.stAbs 2 0xFF02) s1 s.params.portVramAddrHi 0x0012) ∧
      StoreForm (.stAbs 1 0xFF03) s2 s.params.portVramData 0x0034 ∧ exec (.stAbs 1 0xFF01) s = .next s1 ∧
      exec (.stAbs 2 0xFF02) s1 = .next s2 ∧ exec (.stAbs 1 0xFF03) s2 = .next s3 :=
  ⟨two [] 0x0034 0x0012, _, _, _, by decide, ⟨.inl ⟨1, by decide, by decide⟩, .inl ⟨2, by decide, by decide⟩⟩,
    .inl ⟨1, by decide, by decide⟩, rfl, rfl, rfl⟩
theorem witness_VramWriteSequence_high_first :
    ∃ s s1 s2 s3 : State, s.params.PortsDistinct ∧
      (StoreForm (.stAbs 2 0xFF02) s s.params.portVramAddrHi 0x0012 ∧
        StoreForm (.stAbs 1 0xFF01) s1 s.params.portVramAddrLo 0x0034) ∧
      StoreForm (.stAbs 1 0xFF03) s2 s.params.portVramData 0x0034 ∧ exec (.stAbs 2 0xFF02) s = .next s1 ∧
      exec (.stAbs 1 0xFF01) s1 = .next s2 ∧ exec (.stAbs 1 0xFF03) s2 = .next s3 :=
  ⟨two [] 0x0034 0x0012, _, _, _, by decide, ⟨.inl ⟨2, by decide, by decide⟩, .inl ⟨1, by decide, by decide⟩⟩,
    .inl ⟨1, by decide, by decide⟩, rfl, rfl, rfl⟩
theorem witness_LoadAfterStore :
    ∃ t, StoreForm (.stAbs 1 0xFFFF) (two [] 0xABCD 0) 0xFFFF 0xABCD ∧
      exec (.stAbs 1 0xFFFF) (two [] 0xABCD 0) = .next t ∧ NamesRegister 15 ∧ (two [] 0xABCD 0).isPort 0xFFFF = false :=
  ⟨_, .inl ⟨1, rfl, by decide⟩, rfl, by decide, by decide⟩
theorem witness_LoadAfterStore_port :
    ∃ t, StoreForm (.stReg 1 2) (two [] 0x0041 0xFF00) 0xFF00 0x0041 ∧
      exec (.stReg 1 2) (two [] 0x0041 0xFF00) = .next t ∧ NamesRegister 3 ∧ t.x 2 = 0xFF00 ∧
      (two [] 0x0041 0xFF00).isPort 0xFF00 = true :=
  ⟨_, .inr ⟨1, 2, rfl, by decide, by decide⟩, rfl, by decide, by decide, by decide⟩

theorem witness_PrtstrEmitsUpToTheZeroByte :
    State.reset.readByte (0x8000 + BitVec.ofNat 16 0) = 0 ∧ ∀ j, j < 0 → State.reset.readByte (0x8000 + BitVec.ofNat 16 j) ≠ 0 :=
  ⟨by decide, fun _ h => absurd h (by omega)⟩
theorem witness_PrtstrEmitsUpToTheZeroByte_longest :
    zeroAtTheTop.readByte (0x0000 + BitVec.ofNat 16 65535) = 0 ∧
      ∀ j, j < 65535 → zeroAtTheTop.readByte (0x0000 + BitVec.ofNat 16 j) ≠ 0 := by
  constructor
  · rw [zeroAtTheTop_readByte]; decide
  · intro j hj
    rw [zeroAtTheTop_readByte, if_pos (by simp; omega)]
    decide
theorem witness_PrtstrHangsExactlyWithoutAZeroByte :
    (∀ a : Word, noZero.readByte a ≠ 0) ∧ ∃ a : Word, zeroAtTheTop.readByte a = 0 :=
  ⟨fun a => by rw [noZero_readByte]; decide, 0xFFFF, by rw [zeroAtTheTop_readByte]; decide⟩
theorem witness_TraceGrowsOnlyByItsSources :
    ∃ t, exec (.out 1) State.reset = .next t ∧ .dec 0 ∈ t.trace ∧ mayEmit (.inc 1) = false := by
  refine ⟨_, rfl, ?_, rfl⟩
  decide
theorem witness_TraceGrowsOnlyByItsSources_ports :
    ∃ t u : State, exec (.stAbs 1 0xFF00) (two [] 0x1241 0) = .next t ∧ .char 0x41 ∈ t.trace ∧
      exec (.stAbs 1 0xFF03) (two [] 0x1241 0) = .next u ∧ .displayWrite 0x0000 0x41 ∈ u.trace := by
  refine ⟨_, _, rfl, ?_, rfl, ?_⟩ <;> decide
theorem witness_HiddenStateChangesOnlyThroughItsPort :
    ∃ t, exec (.stAbs 1 0xFF01) (two [] 0x0034 0) = .next t ∧ t.vramCursor ≠ (two [] 0x0034 0).vramCursor := by
  refine ⟨_, rfl, ?_⟩
  decide
theorem witness_HiddenStateChangesOnlyThroughItsPort_others :
    ∃ t u v w : State, exec (.stAbs 1 0xFF03) (two [] 0x1234 0) = .next t ∧ t.vramByte 0 ≠ (two [] 0x1234 0).vramByte 0 ∧
      exec (.stAbs 1 0xFF04) (two [] 0x1234 0) = .next u ∧ u.frameReady ≠ (two [] 0x1234 0).frameReady ∧
      exec (.stAbs 1 0xFEFF) (two [] 0x1234 0) = .next v ∧ v.readByte 0xFEFF ≠ (two [] 0x1234 0).readByte 0xFEFF ∧
      v.readByte 0xFF00 ≠ (two [] 0x1234 0).readByte 0xFF00 ∧
      exec (.stAbs 1 0xFF02) (two [] 0x1234 0) = .next w ∧ w.vramCursor ≠ (two [] 0x1234 0).vramCursor := by
  refine ⟨_, _, _, _, rfl, ?_, rfl, ?_, rfl, ?_, ?_, rfl, ?_⟩ <;> decide
theorem witness_HiddenStateIsNeverObserved :
    ∃ s s' t : State, SeesSame s s' ∧ s ≠ s' ∧ exec (.inc 1) s = .next t :=
  ⟨State.reset, ((State.reset.setCursor 0x1234).armFrame).writeVram 5 6, _,
    ⟨fun _ => rfl, rfl, rfl, fun _ => rfl, rfl⟩, by decide, rfl⟩
theorem noZero_stringAt (n : Nat) (a : Word) : noZero.stringAt n a = none := by
  induction n generalizing a with
  | zero => rfl
  | succ n ih => simp [State.stringAt, noZero_readByte, ih]
theorem exec_prtstr_hangs {s : State} {a : Word} (h : s.stringAt 65536 a = none) :
    exec (.prtstr a) s = .fault .prtstrNeverCompletes := by
  simp only [exec, execPrtstr, h]
theorem witness_HiddenStateIsNeverObserved_hang : exec (.prtstr 0x0000) noZero = .fault .prtstrNeverCompletes :=
  exec_prtstr_hangs (noZero_stringAt _ _)
theorem witness_HostMovesTouchOnlyMemoryAndTheFrameFlag : (List.replicate 65536 (0x41 : Byte)).length ≤ 65536 :=
  Nat.le_of_eq List.length_replicate

theorem witness_OpcodeMapIsTheSpecs :
    0x17 ≤ (0x17 : Byte).toNat ∧ (0x17 : Byte).toNat ≤ 0xFE ∧ 0x17 ≤ (0xFE : Byte).toNat ∧ (0xFE : Byte).toNat ≤ 0xFE := by
  decide

end Sys2Proof.Machine.Tests
end

section
/-! The step (00_scope.md R11): the fetch agrees with the decoder over bytes, and an execute phase ends in a next state or in
the hang of PRTSTR. -/

namespace Sys2Proof.Machine

/-- The lengths the statements take from the encoder and those the fetch takes from the format are the same (R91, R95). -/
theorem length_encode (i : Instr) : (encode i).length = instrLength i := by
  cases i <;> rfl

/-- `bytesAt` gives the decoder all it needs: what decodes there is the fetched instruction. -/
theorem State.fetchInstr_eq_of_decode {s : State} {i : Instr} {rest : List Byte}
    (h : decode (s.bytesAt s.pc 4) = .ok (i, rest)) :
    s.fetchInstr = (i, { s with pc := s.pc + BitVec.ofNat 16 (encode i).length }) := by
  obtain ⟨rest', hfetch⟩ := s.decode_bytesAt
  have hi : s.fetchInstr.1 = i := by
    rw [h] at hfetch
    cases hfetch
    rfl
  refine Prod.ext hi ?_
  rw [s.fetchInstr_state, hi, length_encode]
  rfl

/-- A step of a running CORE, in terms of the decoder and the encoder. -/
theorem step_of_decode {s : State} {i : Instr} {rest : List Byte} (hrun : s.running = true)
    (hdec : decode (s.bytesAt s.pc 4) = .ok (i, rest)) :
    step s = completeStep (exec i { s with pc := s.pc + BitVec.ofNat 16 (encode i).length }) := by
  rw [step_running hrun, State.fetchInstr_eq_of_decode hdec]

/-- An arithmetic instruction answers a next state, by its result or by fault entry. -/
theorem arith_answers (i : Instr) (r1 r2 : Byte) (c : Cause) (bad : Nat → Nat → Bool) (f : Nat → Nat → Nat) (s : State) :
    ∃ t, arith i r1 r2 c bad f s = .next t := by
  rw [arith_eq]
  split
  · exact ⟨_, rfl⟩
  · exact ⟨_, rfl⟩

/-- Every execute phase answers a next state, but for a PRTSTR that meets no zero byte (44_output.md R212, log 13). -/
theorem exec_next_or_prtstr_hang (i : Instr) (s : State) :
    (∃ t, exec i s = .next t) ∨
    (∃ addr, i = .prtstr addr ∧ s.stringAt 65536 addr = none ∧ exec i s = .fault .prtstrNeverCompletes) := by
  cases i with
  | add r1 r2 => exact .inl (exec_add r1 r2 s ▸ arith_answers ..)
  | sub r1 r2 => exact .inl (exec_sub r1 r2 s ▸ arith_answers ..)
  | mul r1 r2 => exact .inl (exec_mul r1 r2 s ▸ arith_answers ..)
  | div r1 r2 => exact .inl (exec_div r1 r2 s ▸ arith_answers ..)
  | mod r1 r2 => exact .inl (exec_mod r1 r2 s ▸ arith_answers ..)
  | prtstr addr =>
    cases hstr : s.stringAt 65536 addr with
    | some bs => exact .inl ⟨s.emitAll (bs.map Event.char), by simp only [exec, execPrtstr, hstr]⟩
    | none => exact .inr ⟨addr, rfl, hstr, by simp only [exec, execPrtstr, hstr]⟩
  | _ => exact .inl ⟨_, rfl⟩

theorem exec_ne_refused (i : Instr) (s : State) (r : Refusal) : exec i s ≠ .refused r := by
  obtain ⟨t, h⟩ | ⟨_, _, _, h⟩ := exec_next_or_prtstr_hang i s
  · simp [h]
  · simp [h]

/-- Settles O6: the fetch is the decoding of the bytes at `pc`, and the end of the step zeroes register 0. -/
theorem stepRunsTheDecodedInstruction : Obligations.StepRunsTheDecodedInstruction := by
  intro s i rest hrun hdec
  have hstep := step_of_decode hrun hdec
  refine ⟨fun t hnext => ?_, fun f hfault => ?_, exec_ne_refused i _⟩
  · rw [hstep, hnext]
    rfl
  · rw [hstep, hfault]
    rfl

end Sys2Proof.Machine
end

section
/-! What an execute phase does, tied to the instruction that did it: which register, which jump, which fault. From it one
equation or frame per field: `pc`, `running`, the fault record, `Z`, the registers. -/

namespace Sys2Proof.Machine

/-! ## The fields after the shared operations -/

@[simp] theorem State.writeResult_pc (s : State) (b : Byte) (v : Word) : (s.writeResult b v).pc = s.pc := by
  simp [State.writeResult]
@[simp] theorem State.writeResult_running (s : State) (b : Byte) (v : Word) : (s.writeResult b v).running = s.running := by
  simp [State.writeResult]
@[simp] theorem State.writeResult_fault (s : State) (b : Byte) (v : Word) : (s.writeResult b v).fault = s.fault := by
  simp [State.writeResult]

/-- The registers after a result are those after the write port (10_state.md R23). -/
theorem State.writeResult_regs_get (s : State) (b : Byte) (v : Word) (k : Fin 16) :
    (s.writeResult b v).regs[k] = if k.val = b.toNat ∧ k.val ≠ 0 then v else s.regs[k] :=
  s.setX_regs_get b v k

@[simp] theorem State.routerStore_regs (s : State) (a v : Word) : (s.routerStore a v).regs = s.regs :=
  (s.routerStore_core a v).1
@[simp] theorem State.routerStore_z (s : State) (a v : Word) : (s.routerStore a v).z = s.z :=
  (s.routerStore_core a v).2.1
@[simp] theorem State.routerStore_pc (s : State) (a v : Word) : (s.routerStore a v).pc = s.pc :=
  (s.routerStore_core a v).2.2.1
@[simp] theorem State.routerStore_running (s : State) (a v : Word) : (s.routerStore a v).running = s.running :=
  (s.routerStore_core a v).2.2.2.1
@[simp] theorem State.routerStore_fault (s : State) (a v : Word) : (s.routerStore a v).fault = s.fault :=
  (s.routerStore_core a v).2.2.2.2.1

section
variable (s : State) (i : Instr) (c : Cause) (o : Option FaultOperands)

@[simp] theorem State.raiseFault_regs : (s.raiseFault i c o).regs = s.regs := rfl
@[simp] theorem State.raiseFault_z : (s.raiseFault i c o).z = s.z := rfl
@[simp] theorem State.raiseFault_pc : (s.raiseFault i c o).pc = s.pc := rfl
@[simp] theorem State.raiseFault_running : (s.raiseFault i c o).running = false := rfl
@[simp] theorem State.raiseFault_fault :
    (s.raiseFault i c o).fault = ⟨c, some ⟨s.pc - BitVec.ofNat 16 (instrLength i), opcodeOf i, o⟩⟩ := rfl

end

/-! ## The effect of an instruction -/

/-- On `s` the instruction `i` neither takes a jump nor faults nor halts. -/
structure Sequential (s : State) (i : Instr) : Prop where
  noJump : jumpTarget s i = none
  noFault : faultCauseOf s i = .none
  notHalt : i ≠ .halt

/-- `Effect` tied to the instruction `i`: what each effect says of its
destination, its jump, its fault and its claim on `Z`. -/
inductive EffectOf (s : State) (i : Instr) : State → Prop where
  | unchanged (hseq : Sequential s i) : EffectOf s i s
  | result (b : Byte) (v : Word) (hseq : Sequential s i) (hdest : destOf i = some b) (hz : keepsZ i = false) :
      EffectOf s i (s.writeResult b v)
  | flag (b : Bool) (hseq : Sequential s i) (hz : keepsZ i = false) : EffectOf s i (s.setZ b)
  | jump (w : Word) (htarget : jumpTarget s i = some w) (hcause : faultCauseOf s i = .none) (hhalt : i ≠ .halt) :
      EffectOf s i (s.setPc w)
  | store (a v : Word) (hseq : Sequential s i) (hstore : StoreForm i s a v) : EffectOf s i (s.routerStore a v)
  | text (es : List Event) (hseq : Sequential s i) : EffectOf s i (s.emitAll es)
  | halted (hi : i = .halt) : EffectOf s i s.halt
  | fault (c : Cause) (o : Option FaultOperands) (hjump : jumpTarget s i = none) (hcause : faultCauseOf s i = c)
      (hnone : c ≠ .none)
      (hinfo : faultInfoOf s i = some ⟨s.pc - BitVec.ofNat 16 (instrLength i), opcodeOf i, o⟩) :
      EffectOf s i (s.raiseFault i c o)

/-- A two-register arithmetic instruction faults on its condition and else writes its result to `r1`. -/
theorem effectOf_arith {i : Instr} {r1 r2 : Byte} {c : Cause} {bad : Nat → Nat → Bool} {f : Nat → Nat → Nat}
    {s t : State} (h : arith i r1 r2 c bad f s = .next t) (hjump : jumpTarget s i = none) (hhalt : i ≠ .halt)
    (hdest : destOf i = some r1) (hz : keepsZ i = false)
    (hcause : faultCauseOf s i = if bad (s.x r1).toNat (s.x r2).toNat then c else .none) (hnone : c ≠ .none)
    (hinfo : faultInfoOf s i =
      some ⟨s.pc - BitVec.ofNat 16 (instrLength i), opcodeOf i, some ⟨r1, r2, s.x r1, s.x r2⟩⟩) :
    EffectOf s i t := by
  rw [arith_eq] at h
  split at h
  · next hbad =>
    cases h
    exact .fault c _ hjump (hcause.trans (if_pos hbad)) hnone hinfo
  · next hgood =>
    cases h
    exact .result r1 _ ⟨hjump, hcause.trans (if_neg hgood), hhalt⟩ hdest hz

/-- A conditional jump sets `pc` if taken and else does nothing. -/
theorem effectOf_jumpIf {i : Instr} {s : State} {taken : Bool} {w : Word}
    (htarget : jumpTarget s i = if taken then some w else none) (hcause : faultCauseOf s i = .none) (hhalt : i ≠ .halt) :
    EffectOf s i (s.jumpIf taken w) := by
  cases taken with
  | true => exact .jump w htarget hcause hhalt
  | false => exact .unchanged ⟨htarget, hcause, hhalt⟩

/-- Every meaning's next state is an effect of its instruction. -/
theorem exec_effectOf {i : Instr} {s t : State} (h : exec i s = .next t) : EffectOf s i t := by
  cases i with
  | nop => cases h; exact .unchanged ⟨rfl, rfl, nofun⟩
  | ldi | lui | mov | inc | ldAbs | ldReg => cases h; exact .result _ _ ⟨rfl, rfl, nofun⟩ rfl rfl
  | add r1 r2 =>
    rw [exec_add] at h
    exact effectOf_arith h rfl nofun rfl rfl (by simp [faultCauseOf]) nofun rfl
  | sub r1 r2 =>
    rw [exec_sub] at h
    exact effectOf_arith h rfl nofun rfl rfl (by simp [faultCauseOf]) nofun rfl
  | mul r1 r2 =>
    rw [exec_mul] at h
    exact effectOf_arith h rfl nofun rfl rfl (by simp [faultCauseOf]) nofun rfl
  | div r1 r2 =>
    rw [exec_div] at h
    exact effectOf_arith h rfl nofun rfl rfl (by simp [faultCauseOf]) nofun rfl
  | mod r1 r2 =>
    rw [exec_mod] at h
    exact effectOf_arith h rfl nofun rfl rfl (by simp [faultCauseOf]) nofun rfl
  | cmp r1 r2 => cases h; exact .flag _ ⟨rfl, rfl, nofun⟩ rfl
  | jmp | jmpr => cases h; exact .jump _ rfl rfl nofun
  | jz | jzr => cases h; exact effectOf_jumpIf rfl rfl nofun
  | jnz | jnzr => cases h; exact effectOf_jumpIf (by simp [jumpTarget]) rfl nofun
  | stAbs r addr => cases h; exact .store _ _ ⟨rfl, rfl, nofun⟩ (.inl ⟨r, rfl, rfl⟩)
  | stReg r1 r2 => cases h; exact .store _ _ ⟨rfl, rfl, nofun⟩ (.inr ⟨r1, r2, rfl, rfl, rfl⟩)
  | out r => cases h; exact .text _ ⟨rfl, rfl, nofun⟩
  | prtstr addr =>
    simp only [exec, execPrtstr] at h
    split at h
    · cases h; exact .text _ ⟨rfl, rfl, nofun⟩
    · cases h
  | halt => cases h; exact .halted rfl
  | illegal op => cases h; exact .fault _ _ rfl rfl nofun rfl

/-! ## One field at a time -/

/-- `pc` after the execute phase: the target of a taken jump, else as it was (10_state.md R27). -/
theorem exec_pc {i : Instr} {s t : State} (h : exec i s = .next t) : t.pc = (jumpTarget s i).getD s.pc := by
  cases exec_effectOf h with
  | jump w htarget => simp [htarget]
  | halted hi => simp [hi, jumpTarget]
  | fault c o hjump => simp [hjump]
  | unchanged hseq | result _ _ hseq | flag _ hseq | store _ _ hseq | text _ hseq =>
    simp [hseq.noJump]

/-- `running` after the execute phase: cleared by HALT and by a fatal fault, and by nothing else (10_state.md R33). -/
theorem exec_running {i : Instr} {s t : State} (h : exec i s = .next t) :
    t.running = true ↔ s.running = true ∧ i ≠ .halt ∧ faultCauseOf s i = .none := by
  cases exec_effectOf h with
  | halted hi => simp [hi]
  | fault c o _ hcause hnone => simp [hcause, hnone]
  | jump w _ hcause hhalt => simp [hcause, hhalt]
  | unchanged hseq | result _ _ hseq | flag _ hseq | store _ _ hseq | text _ hseq =>
    simp [hseq.noFault, hseq.notHalt]

/-- The fault record after the execute phase: what the tables of 60_exceptions.md R260 and R261 say of a fault, else as it
was. -/
theorem exec_fault {i : Instr} {s t : State} (h : exec i s = .next t) :
    t.fault = if faultCauseOf s i = .none then s.fault else ⟨faultCauseOf s i, faultInfoOf s i⟩ := by
  cases exec_effectOf h with
  | fault c o _ hcause hnone hinfo => simp [hcause, hnone, hinfo]
  | halted hi => simp [hi, faultCauseOf]
  | jump w _ hcause => simp [hcause]
  | unchanged hseq | result _ _ hseq | flag _ hseq | store _ _ hseq | text _ hseq =>
    simp [hseq.noFault]

/-- `Z` after an instruction of the list of 10_state.md R32. -/
theorem exec_z_of_keepsZ {i : Instr} {s t : State} (hkeep : keepsZ i = true) (h : exec i s = .next t) : t.z = s.z := by
  cases exec_effectOf h with
  | result b v _ _ hz => simp [hz] at hkeep
  | flag b _ hz => simp [hz] at hkeep
  | store a v => simp
  | _ => rfl

/-- An instruction leaves register 0 and every register its result does not go to (10_state.md R23, R24). -/
theorem exec_regs_get {i : Instr} {s t : State} (h : exec i s = .next t) {k : Fin 16}
    (hk : k.val = 0 ∨ destOf i ≠ some (BitVec.ofNat 8 k.val)) : t.regs[k] = s.regs[k] := by
  cases exec_effectOf h with
  | result b v _ hdest =>
    rw [State.writeResult_regs_get, if_neg]
    rintro ⟨hkb, hk0⟩
    refine hk.elim hk0 fun hne => hne ?_
    rw [hdest, hkb, BitVec.ofNat_toNat, BitVec.setWidth_eq]
  | store a v => simp
  | _ => rfl

end Sys2Proof.Machine
end

section
/-! The execute phase reads neither `pc` nor `running` nor the fault record: run from other values of the three, it differs in
no other field. -/

namespace Sys2Proof.Machine

/-- `s` with another `pc`, running flag and fault record. -/
def State.withControl (s : State) (p : Word) (r : Bool) (f : FaultRecord) : State :=
  { s with pc := p, running := r, fault := f }

section
variable (s : State) (p : Word) (r : Bool) (f : FaultRecord)

theorem State.setX_withControl (b : Byte) (v : Word) :
    (s.withControl p r f).setX b v = (s.setX b v).withControl p r f := by
  unfold State.setX
  split <;> rfl

theorem State.writeResult_withControl (b : Byte) (v : Word) :
    (s.withControl p r f).writeResult b v = (s.writeResult b v).withControl p r f := by
  rw [State.writeResult, State.setX_withControl]
  rfl

theorem State.routerStore_withControl (a v : Word) :
    (s.withControl p r f).routerStore a v = (s.routerStore a v).withControl p r f := by
  unfold State.routerStore
  simp only [apply_ite (State.withControl · p r f)]
  rfl

theorem State.stringAt_withControl (n : Nat) (a : Word) : (s.withControl p r f).stringAt n a = s.stringAt n a := by
  induction n generalizing a with
  | zero => rfl
  | succ n ih =>
    simp only [State.stringAt, ih]
    rfl

theorem jumpTarget_withControl (i : Instr) : jumpTarget (s.withControl p r f) i = jumpTarget s i := rfl

theorem faultCauseOf_withControl (i : Instr) : faultCauseOf (s.withControl p r f) i = faultCauseOf s i := rfl

/-- An arithmetic instruction writes the same result, or faults likewise. -/
theorem arith_withControl {i : Instr} {r1 r2 : Byte} {c : Cause} {bad : Nat → Nat → Bool} {g : Nat → Nat → Nat}
    {t : State} (h : arith i r1 r2 c bad g s = .next t) :
    ∃ p' r' f', arith i r1 r2 c bad g (s.withControl p r f) = .next (t.withControl p' r' f') := by
  rw [arith_eq] at h
  split at h
  · next hbad =>
    cases h
    exact ⟨p, false, _, if_pos hbad⟩
  · next hgood =>
    cases h
    exact ⟨p, r, f, (if_neg hgood).trans (congrArg Host.Outcome.next (s.writeResult_withControl ..))⟩

theorem State.jumpIf_withControl (taken : Bool) (w : Word) :
    (s.withControl p r f).jumpIf taken w = (s.jumpIf taken w).withControl (if taken then w else p) r f := by
  cases taken <;> rfl

/-- The execute phase from another `pc`, running flag and fault record answers the same state but for those three. -/
theorem exec_withControl {i : Instr} {t : State} (h : exec i s = .next t) :
    ∃ p' r' f', exec i (s.withControl p r f) = .next (t.withControl p' r' f') := by
  cases i with
  | nop => cases h; exact ⟨p, r, f, rfl⟩
  | ldi | lui | mov | inc | ldAbs | ldReg => cases h; exact ⟨p, r, f, congrArg Host.Outcome.next (s.writeResult_withControl ..)⟩
  | add r1 r2 => rw [exec_add] at h; exact arith_withControl s p r f h
  | sub r1 r2 => rw [exec_sub] at h; exact arith_withControl s p r f h
  | mul r1 r2 => rw [exec_mul] at h; exact arith_withControl s p r f h
  | div r1 r2 => rw [exec_div] at h; exact arith_withControl s p r f h
  | mod r1 r2 => rw [exec_mod] at h; exact arith_withControl s p r f h
  | cmp r1 r2 => cases h; exact ⟨p, r, f, rfl⟩
  | jmp addr => cases h; exact ⟨addr, r, f, rfl⟩
  | jmpr b => cases h; exact ⟨s.x b, r, f, rfl⟩
  | jz | jnz | jzr | jnzr => cases h; exact ⟨_, r, f, congrArg Host.Outcome.next (s.jumpIf_withControl ..)⟩
  | stAbs | stReg => cases h; exact ⟨p, r, f, congrArg Host.Outcome.next (s.routerStore_withControl ..)⟩
  | out b => cases h; exact ⟨p, r, f, rfl⟩
  | prtstr addr =>
    simp only [exec, execPrtstr, State.stringAt_withControl] at h ⊢
    split at h
    · cases h; exact ⟨p, r, f, rfl⟩
    · cases h
  | halt => cases h; exact ⟨p, false, f, rfl⟩
  | illegal op => cases h; exact ⟨p, false, _, rfl⟩

end

end Sys2Proof.Machine
end

section
/-! The registers, `pc`, `Z` and `running` over the ports, the step and the host's moves (10_state.md R21 to R23, R27, R32,
R33). -/

namespace Sys2Proof.Machine

/-- A register other than the one a write names reads as before. -/
theorem State.x_setX_of_ne (s : State) {b c : Byte} (v : Word) (hne : c ≠ b) : (s.setX b v).x c = s.x c := by
  by_cases hc : NamesRegister c
  · rw [State.x_of_names _ _ hc, State.x_of_names _ _ hc]
    refine (s.setX_regs_get b v ⟨c.toNat, by omega⟩).trans (if_neg fun h => hne ?_)
    exact BitVec.eq_of_toNat_eq h.1
  · rw [State.x_of_not_names _ _ hc, State.x_of_not_names _ _ hc]

theorem jumpTarget_setPc (s : State) (p : Word) (i : Instr) : jumpTarget (s.setPc p) i = jumpTarget s i := rfl

theorem faultCauseOf_setPc (s : State) (p : Word) (i : Instr) : faultCauseOf (s.setPc p) i = faultCauseOf s i := rfl

/-- A running step that answers is the execute phase of the decoded instruction, its end included. -/
theorem exec_of_step {s t : State} {i : Instr} {rest : List Byte} (hrun : s.running = true)
    (hdec : decode (s.bytesAt s.pc 4) = .ok (i, rest)) (hstep : step s = .next t) :
    ∃ u, exec i (s.setPc (s.pc + BitVec.ofNat 16 (encode i).length)) = .next u ∧ t = u.endStep :=
  completeStep_next (step_of_decode hrun hdec ▸ hstep)

/-- Only reset sets a halted CORE running (10_state.md R33). -/
theorem applyMove_running_of_halted {m : HostMove} {s t : State} (hhalted : s.running = false)
    (h : applyMove m s = .next t) (hm : m ≠ .reset) : t.running = false := by
  cases m with
  | reset => exact absurd rfl hm
  | load base bytes =>
    cases h
    rw [State.loadBytes_eq]
    exact hhalted
  | stepEn =>
    rw [applyMove, step_halted hhalted] at h
    cases h
    exact hhalted
  | frameAck => cases h; exact hhalted

/-- Settles O16: by whether the byte names a register. -/
theorem registerReadPort : Obligations.RegisterReadPort := by
  intro s b
  refine ⟨?_, fun k hk hb => ?_, fun hb => s.x_of_not_names b (by omega)⟩
  · rintro rfl
    exact s.x_zero
  · have hnames : NamesRegister b := by omega
    rw [State.x_of_names s b hnames]
    simp [hb]

/-- Settles O15: the end of the step zeroes register 0, whatever the execute phase did. -/
theorem registerZeroIsZeroAfterEveryInstruction : Obligations.RegisterZeroIsZeroAfterEveryInstruction := by
  refine ⟨fun s t hrun hstep => ?_, State.x_zero, fun s v => s.setX_of_not_names 0 v (by simp)⟩
  rw [step_running hrun] at hstep
  obtain ⟨u, -, rfl⟩ := completeStep_next hstep
  exact ⟨u.endStep_regs_get 0, u.endStep.x_zero⟩

/-- Settles O17: the port by cases on the byte, the instructions by their effects. -/
theorem registerWritePort : Obligations.RegisterWritePort := by
  refine ⟨fun s b c v => ?_, fun s b v => ⟨s.setX_of_not_names b v, ?_⟩, fun i s t h k hk => exec_regs_get h hk⟩
  · by_cases hcb : c = b
    · subst hcb
      by_cases hc : NamesRegister c
      · rw [if_pos ⟨rfl, hc⟩, State.x_setX_same s c v hc]
      · rw [if_neg fun h => hc h.2, State.setX_of_not_names s c v hc]
    · rw [if_neg fun h => hcb h.1, State.x_setX_of_ne s v hcb]
  · exact ⟨_, s.setX_eq b v, fun k hk => (s.setX_regs_get b v k).trans (if_neg fun h => hk h.1)⟩

/-- Settles O18: none of the listed instructions has a result or sets the flag. -/
theorem instructionsThatNeverChangeZ : Obligations.InstructionsThatNeverChangeZ :=
  fun _ _ _ => exec_z_of_keepsZ

/-- Settles O8: `exec_pc` over the step, and the independence of `pc`. -/
theorem pcIsSequentialButForTakenJumps : Obligations.PcIsSequentialButForTakenJumps := by
  refine ⟨fun s t i rest hrun hdec hstep => ?_, fun i s t p h => ?_⟩
  · obtain ⟨u, hu, rfl⟩ := exec_of_step hrun hdec hstep
    rw [State.endStep_pc, exec_pc hu, jumpTarget_setPc]
    cases jumpTarget s i <;> rfl
  · obtain ⟨p', r', f', hu⟩ := exec_withControl s p s.running s.fault h
    have hrunning : (t.withControl p' r' f').running = t.running := by
      rw [Bool.eq_iff_iff, exec_running hu, exec_running h, faultCauseOf_withControl]
      rfl
    exact ⟨_, hu, rfl, rfl, rfl, rfl, rfl, rfl, rfl, hrunning⟩

/-- Settles O19: `exec_running` over the step, the host's moves one by one, and the independence of `running`. -/
theorem runningClearedOnlyByHaltOrFault : Obligations.RunningClearedOnlyByHaltOrFault := by
  refine ⟨fun p => rfl, fun s t i rest hrun hdec hstep => ?_, fun m s t hhalted h hrun => ?_, fun i s t b h => ?_⟩
  · obtain ⟨u, hu, rfl⟩ := exec_of_step hrun hdec hstep
    rw [State.endStep_running, ← Bool.not_eq_true, exec_running hu, faultCauseOf_setPc]
    simp only [State.setPc_running, hrun]
    tauto
  · by_contra hm
    simp [applyMove_running_of_halted hhalted h hm] at hrun
  · obtain ⟨p', r', f', hu⟩ := exec_withControl s s.pc b s.fault h
    have hpc : (t.withControl p' r' f').pc = t.pc := by
      rw [exec_pc hu, exec_pc h, jumpTarget_withControl]
      rfl
    have hfault : (t.withControl p' r' f').fault = t.fault := by
      rw [exec_fault hu, exec_fault h, faultCauseOf_withControl]
      rfl
    exact ⟨_, hu, rfl, hpc, rfl, rfl, rfl, rfl, rfl, rfl, hfault⟩

end Sys2Proof.Machine
end

section
/-! The address router at the five ports (20_memory.md R62 to R67): what a routed store is at each port. -/

namespace Sys2Proof.Machine

/-! ## The bytes of a word in natural numbers -/

theorem loByte_toNat (v : Word) : (loByte v).toNat = v.toNat % 256 := by
  have hv := joinBytes_toNat (hiByte v) (loByte v)
  have hlo := (loByte v).isLt
  rw [joinBytes_hi_lo] at hv
  omega

theorem hiByte_toNat (v : Word) : (hiByte v).toNat = v.toNat / 256 := by
  have hv := joinBytes_toNat (hiByte v) (loByte v)
  have hlo := (loByte v).isLt
  rw [joinBytes_hi_lo] at hv
  omega

/-! ## The routed store at each port -/

theorem State.routerStore_charOut (s : State) (v : Word) :
    s.routerStore s.params.portCharOut v = s.emit (.char (loByte v)) :=
  if_pos rfl

/-- Distinct ports: each of the five differs from those the router compares before it. -/
theorem Params.ne_earlier_ports {p : Params} (h : p.PortsDistinct) :
    p.portVramAddrLo ≠ p.portCharOut ∧
    (p.portVramAddrHi ≠ p.portCharOut ∧ p.portVramAddrHi ≠ p.portVramAddrLo) ∧
    (p.portVramData ≠ p.portCharOut ∧ p.portVramData ≠ p.portVramAddrLo ∧ p.portVramData ≠ p.portVramAddrHi) ∧
    (p.portPresent ≠ p.portCharOut ∧ p.portPresent ≠ p.portVramAddrLo ∧ p.portPresent ≠ p.portVramAddrHi ∧
      p.portPresent ≠ p.portVramData) := by
  simp only [Params.PortsDistinct, Params.ports, List.nodup_cons, List.mem_cons, not_or] at h
  tauto

section
variable {s : State} (hports : s.params.PortsDistinct)
include hports

theorem State.routerStore_vramAddrLo (v : Word) :
    s.routerStore s.params.portVramAddrLo v = s.setCursor (joinBytes (hiByte s.vramCursor) (loByte v)) := by
  obtain ⟨hchar, -⟩ := Params.ne_earlier_ports hports
  rw [State.routerStore, if_neg hchar, if_pos rfl]

theorem State.routerStore_vramAddrHi (v : Word) :
    s.routerStore s.params.portVramAddrHi v = s.setCursor (joinBytes (loByte v) (loByte s.vramCursor)) := by
  obtain ⟨-, ⟨hchar, hlo⟩, -⟩ := Params.ne_earlier_ports hports
  rw [State.routerStore, if_neg hchar, if_neg hlo, if_pos rfl]

theorem State.routerStore_vramData (v : Word) :
    s.routerStore s.params.portVramData v =
      (s.writeVram s.vramCursor (loByte v)).emit (.displayWrite s.vramCursor (loByte v)) := by
  obtain ⟨-, -, ⟨hchar, hlo, hhi⟩, -⟩ := Params.ne_earlier_ports hports
  rw [State.routerStore, if_neg hchar, if_neg hlo, if_neg hhi, if_pos rfl]

theorem State.routerStore_present (v : Word) : s.routerStore s.params.portPresent v = s.armFrame := by
  obtain ⟨-, -, -, hchar, hlo, hhi, hdata⟩ := Params.ne_earlier_ports hports
  rw [State.routerStore, if_neg hchar, if_neg hlo, if_neg hhi, if_neg hdata, if_pos rfl]

/-! After a move of the cursor the same ports are routed, from the cursor set last. -/

theorem State.setCursor_routerStore_vramAddrLo (c v : Word) :
    (s.setCursor c).routerStore s.params.portVramAddrLo v = s.setCursor (joinBytes (hiByte c) (loByte v)) :=
  State.routerStore_vramAddrLo (s := s.setCursor c) hports v

theorem State.setCursor_routerStore_vramAddrHi (c v : Word) :
    (s.setCursor c).routerStore s.params.portVramAddrHi v = s.setCursor (joinBytes (loByte v) (loByte c)) :=
  State.routerStore_vramAddrHi (s := s.setCursor c) hports v

theorem State.setCursor_routerStore_vramData (c v : Word) :
    (s.setCursor c).routerStore s.params.portVramData v =
      ((s.setCursor c).writeVram c (loByte v)).emit (.displayWrite c (loByte v)) :=
  State.routerStore_vramData (s := s.setCursor c) hports v

end

/-! ## Store instructions -/

/-- A store, to a port or not, leaves registers, `Z`, `pc`, the running flag, the fault record and the parameters. -/
theorem coreFrame_of_storeForm {i : Instr} {s t : State} {a v : Word} (hstore : StoreForm i s a v)
    (h : exec i s = .next t) : CoreFrame s t := by
  rw [exec_of_storeForm hstore] at h
  cases h
  obtain ⟨hregs, hz, hpc, hrunning, hfault, hparams⟩ := s.routerStore_core a v
  exact ⟨fun k => by rw [hregs], hz, hpc, ⟨hrunning, hfault⟩, hparams⟩

/-- VRAM after the two acts of the data port: only the byte written differs. -/
theorem State.vramByte_writeVram_emit (s : State) (a b : Word) (v : Byte) (e : Event) :
    ((s.writeVram a v).emit e).vramByte b = if b = a then v else s.vramByte b :=
  s.vramByte_writeVram a b v

/-- One store to each cursor port, in either order, assemble the cursor from the two low bytes (D10); nothing else moves. -/
theorem cursor_stores_assemble {i1 i2 : Instr} {s s1 s2 : State} {lo hi : Word} (hports : s.params.PortsDistinct)
    (hstores : (StoreForm i1 s s.params.portVramAddrLo lo ∧ StoreForm i2 s1 s.params.portVramAddrHi hi) ∨
      (StoreForm i1 s s.params.portVramAddrHi hi ∧ StoreForm i2 s1 s.params.portVramAddrLo lo))
    (h1 : exec i1 s = .next s1) (h2 : exec i2 s1 = .next s2) :
    s2 = s.setCursor (joinBytes (loByte hi) (loByte lo)) := by
  obtain ⟨hlo, hhi⟩ | ⟨hhi, hlo⟩ := hstores
  · rw [exec_of_storeForm hlo, State.routerStore_vramAddrLo hports] at h1
    cases h1
    rw [exec_of_storeForm hhi, State.setCursor_routerStore_vramAddrHi hports, loByte_joinBytes] at h2
    cases h2
    rfl
  · rw [exec_of_storeForm hhi, State.routerStore_vramAddrHi hports] at h1
    cases h1
    rw [exec_of_storeForm hlo, State.setCursor_routerStore_vramAddrLo hports, hiByte_joinBytes] at h2
    cases h2
    rfl

end Sys2Proof.Machine
end

section
/-! The statements about stores to the ports (20_memory.md R63 to R67). -/

namespace Sys2Proof.Machine

/-- Settles O43: the store is one emitted event. -/
theorem characterPortEmitsTheLowByte : Obligations.CharacterPortEmitsTheLowByte := by
  intro i s v hstore
  have hexec := exec_of_storeForm hstore
  rw [State.routerStore_charOut] at hexec
  exact ⟨_, hexec, ⟨loByte v, loByte_toNat v, rfl⟩, coreFrame_of_storeForm hstore hexec, fun _ => rfl, fun _ => rfl, rfl,
    rfl⟩

/-- Settles O44: the store sets the cursor to one new and one old byte. -/
theorem cursorPortsReplaceOneByte : Obligations.CursorPortsReplaceOneByte := by
  refine fun i s v hports => ⟨fun hstore => ?_, fun hstore => ?_⟩
  · have hexec := exec_of_storeForm hstore
    rw [State.routerStore_vramAddrLo hports] at hexec
    refine ⟨_, hexec, ?_, coreFrame_of_storeForm hstore hexec, fun _ => rfl, fun _ => rfl, rfl, rfl⟩
    rw [State.setCursor_vramCursor, joinBytes_toNat, hiByte_toNat, loByte_toNat, Nat.add_comm]
  · have hexec := exec_of_storeForm hstore
    rw [State.routerStore_vramAddrHi hports] at hexec
    refine ⟨_, hexec, ?_, coreFrame_of_storeForm hstore hexec, fun _ => rfl, fun _ => rfl, rfl, rfl⟩
    rw [State.setCursor_vramCursor, joinBytes_toNat, loByte_toNat, loByte_toNat, Nat.add_comm]

/-- Settles O45: the store is one VRAM byte written and the same byte emitted. -/
theorem vramDataPortWritesAtTheCursor : Obligations.VramDataPortWritesAtTheCursor := by
  intro i s v hports hstore
  have hexec := exec_of_storeForm hstore
  rw [State.routerStore_vramData hports] at hexec
  refine ⟨_, hexec, ?_, fun a ha => ?_, ?_, rfl, rfl, coreFrame_of_storeForm hstore hexec, fun _ => rfl⟩
  · rw [State.vramByte_writeVram_emit, if_pos rfl, loByte_toNat]
  · rw [State.vramByte_writeVram_emit, if_neg ha]
  · rw [State.vramByte_writeVram_emit, if_pos rfl]
    rfl

/-- Settles O46: the store is the arming of the frame flag. -/
theorem presentPortArmsTheFrameFlag : Obligations.PresentPortArmsTheFrameFlag := by
  intro i s v hports hstore
  have hexec := exec_of_storeForm hstore
  rw [State.routerStore_present hports] at hexec
  exact ⟨_, hexec, rfl, coreFrame_of_storeForm hstore hexec, fun _ => rfl, fun _ => rfl, rfl, rfl⟩

/-- Settles O47: the cursor is assembled first, whatever the order, and the data store writes there. -/
theorem vramWriteSequence : Obligations.VramWriteSequence := by
  intro i1 i2 i3 s s1 s2 s3 lo hi v hports hcursor hdata h1 h2 h3
  obtain rfl := cursor_stores_assemble hports hcursor h1 h2
  rw [exec_of_storeForm hdata, State.setCursor_routerStore_vramData hports] at h3
  cases h3
  refine ⟨rfl, rfl, ?_, fun _ => rfl⟩
  rw [State.vramByte_writeVram_emit, if_pos rfl]

end Sys2Proof.Machine
end

section
/-! The decoder by format (30_encoding.md R91): with a shape of the opcode map and its operand bytes, one equation each; and
the illegal opcodes (R97). -/

namespace Sys2Proof.Machine

/-! ## One equation per format -/

section
variable {op : Byte}

theorem decode_n {i : Instr} (h : shapeOf op = .n i) (tail : List Byte) : decode (op :: tail) = .ok (i, tail) := by
  simp only [decode, h]

theorem decode_r {f : Byte → Instr} (h : shapeOf op = .r f) (r : Byte) (tail : List Byte) :
    decode (op :: r :: tail) = .ok (f r, tail) := by
  simp only [decode, h]

theorem decode_ri {f : Byte → Byte → Instr} (h : shapeOf op = .ri f) (r imm8 : Byte) (tail : List Byte) :
    decode (op :: r :: imm8 :: tail) = .ok (f r imm8, tail) := by
  simp only [decode, h]

theorem decode_rr {f : Byte → Byte → Instr} (h : shapeOf op = .rr f) (r1 r2 : Byte) (tail : List Byte) :
    decode (op :: r1 :: r2 :: tail) = .ok (f r1 r2, tail) := by
  simp only [decode, h]

theorem decode_a {f : Word → Instr} (h : shapeOf op = .a f) (lo hi : Byte) (tail : List Byte) :
    decode (op :: lo :: hi :: tail) = .ok (f (joinBytes hi lo), tail) := by
  simp only [decode, h]

theorem decode_ra {f : Byte → Word → Instr} (h : shapeOf op = .ra f) (r lo hi : Byte) (tail : List Byte) :
    decode (op :: r :: lo :: hi :: tail) = .ok (f r (joinBytes hi lo), tail) := by
  simp only [decode, h]

end

/-! ## The illegal opcodes -/

/-- The bytes 0x17 to 0xFE match no row of the opcode map (30_encoding.md R97). -/
theorem shapeOf_of_illegal {op : Byte} (hlow : 0x17 ≤ op.toNat) (hhigh : op.toNat ≤ 0xFE) :
    shapeOf op = .n (.illegal op) := by
  unfold shapeOf
  split
  case h_25 => rfl
  all_goals omega

/-- The decoder gives well-formed instructions only, since the shapes of the opcode map do. -/
theorem wellFormed_of_decode {bs rest : List Byte} {i : Instr} (h : decode bs = .ok (i, rest)) : i.wellFormed = true := by
  cases bs with
  | nil => cases h
  | cons op operands =>
    have hspec := shapeOf_spec op
    unfold decode at h
    dsimp only at h
    generalize shapeOf op = sh at h hspec
    split at h <;> cases h <;> simp only [hspec]

theorem wellFormed_illegal {op : Byte} : (Instr.illegal op).wellFormed = true ↔ 0x17 ≤ op.toNat ∧ op.toNat ≤ 0xFE := by
  simp [Instr.wellFormed, illegalOpcode]

/-- Executing an illegal instruction is a fault entry, with the cause UnknownOpcode (45_system.md R222). -/
theorem exec_illegal_halts (op : Byte) (s : State) :
    ∃ t, exec (.illegal op) s = .next t ∧ t.fault.cause = .unknownOpcode ∧ t.running = false :=
  ⟨_, exec_illegal op s, congrArg FaultRecord.cause (s.raiseFault_fault ..), s.raiseFault_running ..⟩

/-! ## The statements about the opcode map -/

/-- Settles O5: the decoder leaves no byte of the range to another row, and gives no illegal instruction outside of it. -/
theorem undefinedOpcodesRaiseUnknownOpcode : Obligations.UndefinedOpcodesRaiseUnknownOpcode := by
  refine fun op => ⟨fun rest => ⟨fun ⟨hlow, hhigh⟩ => ?_, fun h => ?_⟩, fun _ => exec_illegal_halts op⟩
  · exact decode_n (shapeOf_of_illegal hlow hhigh) rest
  · exact wellFormed_illegal.mp (wellFormed_of_decode h)

/-- Settles O4: the formats of the five instructions, in order. -/
theorem exampleProgramDecodes : Obligations.ExampleProgramDecodes :=
  ⟨decode_ri rfl 1 5 _, decode_ri rfl 2 3 _, decode_rr rfl 1 2 _, decode_r rfl 1 _, decode_n rfl _⟩

/-- Settles O57: each row's shape, by the decoder's equation for its format. -/
theorem opcodeMapIsTheSpecs : Obligations.OpcodeMapIsTheSpecs := by
  refine ⟨fun tail => ?formatN, fun r imm8 tail => ?formatRI, fun r1 r2 tail => ?formatRR, fun lo hi tail => ?formatA,
    fun r tail => ?formatR, fun r lo hi tail => ?formatRA, fun op tail hlow hhigh => ?illegal⟩
  case formatN => exact ⟨decode_n rfl _, decode_n rfl _⟩
  case formatRI => exact ⟨decode_ri rfl .., decode_ri rfl ..⟩
  case formatRR =>
    exact ⟨decode_rr rfl .., decode_rr rfl .., decode_rr rfl .., decode_rr rfl .., decode_rr rfl .., decode_rr rfl ..,
      decode_rr rfl .., decode_rr rfl .., decode_rr rfl ..⟩
  case formatA => exact ⟨decode_a rfl .., decode_a rfl .., decode_a rfl .., decode_a rfl ..⟩
  case formatR => exact ⟨decode_r rfl .., decode_r rfl .., decode_r rfl .., decode_r rfl .., decode_r rfl ..⟩
  case formatRA => exact ⟨decode_ra rfl .., decode_ra rfl ..⟩
  case illegal => exact ⟨decode_n (shapeOf_of_illegal hlow hhigh) tail, exec_illegal_halts op⟩

end Sys2Proof.Machine
end

section
/-! The instructions whose whole effect is one result (10_state.md R23, R24, R31): what the register port, the flag and the
frame are after a result, and from it the statements about LDI, LUI and MOV (40_move_immediate.md). -/

namespace Sys2Proof.Machine

/-! ## A result: its value, its flag, its frame -/

/-- A named register reads the result (10_state.md R22, R23). -/
theorem State.x_writeResult_same (s : State) {b : Byte} (v : Word) (h : NamesRegister b) : (s.writeResult b v).x b = v :=
  s.x_setX_same b v h

/-- `Z` follows the result, written or discarded (10_state.md R31, D4). -/
theorem State.writeResult_z_iff (s : State) (b : Byte) (v : Word) : (s.writeResult b v).z = true ↔ v.toNat = 0 :=
  zeroFlag_iff v

/-- A result changes the register its operand byte names and `Z`, and nothing else. -/
theorem State.writeResult_frame (s : State) (b : Byte) (v : Word) : ResultFrame b s (s.writeResult b v) := by
  have hregs : KeepsRegsBut b s (s.writeResult b v) := fun k hk => by
    rw [s.writeResult_regs_get, if_neg]
    rintro ⟨hkb, hk0⟩
    exact hk.elim (· hkb) hk0
  rw [State.writeResult_eq] at hregs ⊢
  exact ⟨hregs, rfl, ⟨rfl, rfl⟩, fun _ => rfl, ⟨fun _ => rfl, rfl, rfl⟩, rfl, rfl⟩

/-! ## The values -/

/-- The immediate as a number is not changed by zero-extension (30_encoding.md R94). -/
theorem zext16_toNat (imm8 : Byte) : (zext16 imm8).toNat = imm8.toNat :=
  BitVec.toNat_setWidth_of_le (by decide)

/-- A word with its high byte replaced: the new byte's weight is 256, the low byte is the word modulo 256. -/
theorem joinBytes_loByte_toNat (hi : Byte) (v : Word) :
    (joinBytes hi (loByte v)).toNat = 256 * hi.toNat + v.toNat % 256 := by
  rw [joinBytes_toNat, loByte_toNat, Nat.add_comm]

/-! ## The statements -/

/-- Settles O25: LDI's result is the zero-extended immediate. -/
theorem ldiLoadsTheZeroExtendedImmediate : Obligations.LdiLoadsTheZeroExtendedImmediate := by
  refine fun r imm8 => ⟨rfl, fun s => ⟨_, exec_ldi r imm8 s, fun hr => ?value, ?flag, s.writeResult_frame r _⟩⟩
  case value => rw [s.x_writeResult_same _ hr, zext16_toNat]
  case flag => rw [s.writeResult_z_iff, zext16_toNat]

/-- Settles O26: LUI's result is the immediate above the register's old low byte, and it is zero iff both are. -/
theorem luiReplacesTheHighByte : Obligations.LuiReplacesTheHighByte := by
  refine fun r imm8 => ⟨rfl, fun s => ⟨_, exec_lui r imm8 s, fun hr => ?value, ?flag, s.writeResult_frame r _⟩⟩
  case value => rw [s.x_writeResult_same _ hr, joinBytes_loByte_toNat]
  case flag =>
    rw [s.writeResult_z_iff, joinBytes_loByte_toNat]
    omega

/-- Settles O27: MOV's result is the value the source reads before the write. -/
theorem movCopiesTheSource : Obligations.MovCopiesTheSource :=
  fun r1 r2 => ⟨rfl, fun s =>
    ⟨_, exec_mov r1 r2 s, s.x_writeResult_same _, s.writeResult_z_iff r1 _, s.writeResult_frame r1 _⟩⟩

end Sys2Proof.Machine
end

section
/-! Arithmetic and compare (41_arithmetic.md): each instruction without its fault is one result, a word operation on the
values read. Its value and its flag as natural numbers are then facts about words; its frame is that of a result. -/

namespace Sys2Proof.Machine

/-! ## The two ways of a two-register instruction -/

section
variable {i : Instr} {r1 r2 : Byte} {c : Cause} {bad : Nat → Nat → Bool} {f : Nat → Nat → Nat} {s : State}

/-- Off its fault condition the instruction writes the word of its exact result. -/
theorem arith_result {v : Word} (hgood : bad (s.x r1).toNat (s.x r2).toNat = false)
    (hv : v.toNat = f (s.x r1).toNat (s.x r2).toNat) : arith i r1 r2 c bad f s = .next (s.writeResult r1 v) := by
  rw [arith_eq, hgood, ← hv, BitVec.ofNat_toNat, BitVec.setWidth_eq]
  rfl

/-- On its fault condition the instruction enters the fault (60_exceptions.md R262). -/
theorem arith_fault (hbad : bad (s.x r1).toNat (s.x r2).toNat = true) :
    arith i r1 r2 c bad f s = .next (s.raiseFault i c (some ⟨r1, r2, s.x r1, s.x r2⟩)) := by
  rw [arith_eq, if_pos hbad]

end

/-! ## Each instruction in terms of word operations -/

section
variable {r1 r2 : Byte} {s : State}

theorem exec_add_of_fits (h : (s.x r1).toNat + (s.x r2).toNat ≤ 65535) :
    exec (.add r1 r2) s = .next (s.writeResult r1 (s.x r1 + s.x r2)) :=
  (exec_add r1 r2 s).trans (arith_result (decide_eq_false (by omega)) (BitVec.toNat_add_of_lt (by omega)))

theorem exec_sub_of_le (h : (s.x r2).toNat ≤ (s.x r1).toNat) :
    exec (.sub r1 r2) s = .next (s.writeResult r1 (s.x r1 - s.x r2)) :=
  (exec_sub r1 r2 s).trans (arith_result (decide_eq_false (by omega)) (BitVec.toNat_sub_of_le h))

theorem exec_sub_of_lt (h : (s.x r1).toNat < (s.x r2).toNat) :
    exec (.sub r1 r2) s = .next (s.raiseFault (.sub r1 r2) .subUnderflow (some ⟨r1, r2, s.x r1, s.x r2⟩)) :=
  (exec_sub r1 r2 s).trans (arith_fault (decide_eq_true h))

theorem exec_mul_of_fits (h : (s.x r1).toNat * (s.x r2).toNat ≤ 65535) :
    exec (.mul r1 r2) s = .next (s.writeResult r1 (s.x r1 * s.x r2)) :=
  (exec_mul r1 r2 s).trans (arith_result (decide_eq_false (by omega)) (BitVec.toNat_mul_of_lt (by omega)))

theorem exec_div_of_pos (h : 0 < (s.x r2).toNat) :
    exec (.div r1 r2) s = .next (s.writeResult r1 (s.x r1 / s.x r2)) :=
  (exec_div r1 r2 s).trans (arith_result (decide_eq_false (by omega)) BitVec.toNat_udiv)

theorem exec_mod_of_pos (h : 0 < (s.x r2).toNat) :
    exec (.mod r1 r2) s = .next (s.writeResult r1 (s.x r1 % s.x r2)) :=
  (exec_mod r1 r2 s).trans (arith_result (decide_eq_false (by omega)) BitVec.toNat_umod)

end

/-! ## The statements about one instruction -/

/-- Settles O28: where the sum fits, the sum of the words is the sum of the numbers. -/
theorem addGivesTheExactSum : Obligations.AddGivesTheExactSum := by
  refine fun r1 r2 => ⟨rfl, fun s hfits => ?_⟩
  have hsum := BitVec.toNat_add_of_lt (x := s.x r1) (y := s.x r2) (by omega)
  refine ⟨_, exec_add_of_fits hfits, fun hr => ?value, ?flag, s.writeResult_frame r1 _⟩
  case value => rw [s.x_writeResult_same _ hr, hsum]
  case flag => rw [s.writeResult_z_iff, hsum]

/-- Settles O29: where the minuend is not below, the difference of the words is that of the numbers. -/
theorem subGivesTheExactDifference : Obligations.SubGivesTheExactDifference := by
  refine fun r1 r2 => ⟨rfl, fun s hle => ?_⟩
  have hdiff := BitVec.toNat_sub_of_le (x := s.x r1) (y := s.x r2) hle
  refine ⟨_, exec_sub_of_le hle, fun hr => ?value, ?flag, s.writeResult_frame r1 _⟩
  case value => rw [s.x_writeResult_same _ hr, hdiff, Nat.sub_add_cancel hle]
  case flag =>
    rw [s.writeResult_z_iff, hdiff]
    omega

/-- Settles O30: where the product fits, the product of the words is that of the numbers. -/
theorem mulGivesTheExactProduct : Obligations.MulGivesTheExactProduct := by
  refine fun r1 r2 => ⟨rfl, fun s hfits => ?_⟩
  have hprod := BitVec.toNat_mul_of_lt (x := s.x r1) (y := s.x r2) (by omega)
  refine ⟨_, exec_mul_of_fits hfits, fun hr => ?value, ?flag, s.writeResult_frame r1 _⟩
  case value => rw [s.x_writeResult_same _ hr, hprod]
  case flag => rw [s.writeResult_z_iff, hprod, Nat.mul_eq_zero]

/-- Settles O31: the quotient of the words is the truncated quotient of the numbers. -/
theorem divGivesTheTruncatedQuotient : Obligations.DivGivesTheTruncatedQuotient := by
  refine fun r1 r2 => ⟨rfl, fun s hpos => ⟨_, exec_div_of_pos hpos, fun hr => ?value, ?flag, s.writeResult_frame r1 _⟩⟩
  case value =>
    rw [s.x_writeResult_same _ hr, BitVec.toNat_udiv]
    exact ⟨Nat.div_mul_le_self .., Nat.lt_mul_of_div_lt (Nat.lt_succ_self _) hpos⟩
  case flag => rw [s.writeResult_z_iff, BitVec.toNat_udiv, Nat.div_eq_zero_iff_lt hpos]

/-- Settles O32: quotient and remainder of the same words are those of the numbers. -/
theorem modGivesTheRemainderOfDiv : Obligations.ModGivesTheRemainderOfDiv := by
  refine fun r1 r2 => ⟨rfl, fun s hpos =>
    ⟨_, _, exec_mod_of_pos hpos, exec_div_of_pos hpos, fun hr => ?value, ?flag, s.writeResult_frame r1 _⟩⟩
  case value =>
    rw [s.x_writeResult_same _ hr, s.x_writeResult_same _ hr, BitVec.toNat_umod, BitVec.toNat_udiv]
    exact ⟨Nat.mod_lt _ hpos, (Nat.div_add_mod ..).symm⟩
  case flag => rw [s.writeResult_z_iff, BitVec.toNat_umod, Nat.dvd_iff_mod_eq_zero]

/-- The word after `v`: 0 after 0xFFFF (41_arithmetic.md R145, D9). -/
theorem toNat_add_one (v : Word) : (v + 1).toNat = if v.toNat = 65535 then 0 else v.toNat + 1 := by
  split <;> bv_omega

/-- Settles O33: INC's result is the next word, which is zero after 0xFFFF only. -/
theorem incWrapsAndNeverFaults : Obligations.IncWrapsAndNeverFaults := by
  refine fun r => ⟨rfl, fun s => ⟨_, exec_inc r s, fun hr => ?value, ?flag, s.writeResult_frame r _⟩⟩
  case value => rw [s.x_writeResult_same _ hr, toNat_add_one]
  case flag =>
    rw [s.writeResult_z_iff, toNat_add_one]
    split <;> omega

/-- The flag of a comparison, on numbers (10_state.md R31). -/
theorem equalFlag_iff (a b : Word) : equalFlag a b = true ↔ a.toNat = b.toNat := by
  rw [equalFlag, beq_iff_eq, toNat_inj_word]

/-- Settles O34: CMP only sets the flag. -/
theorem cmpWritesOnlyZ : Obligations.CmpWritesOnlyZ :=
  fun r1 r2 => ⟨rfl, fun s => ⟨_, exec_cmp r1 r2 s, equalFlag_iff _ _,
    fun _ => rfl, rfl, ⟨rfl, rfl⟩, fun _ => rfl, ⟨fun _ => rfl, rfl, rfl⟩, rfl, rfl⟩⟩

/-! ## ADD, then SUB on the same operand bytes (41_arithmetic.md R150) -/

/-- A register other than the one a result names reads as before. -/
theorem State.x_writeResult_of_ne (s : State) {b c : Byte} (v : Word) (hne : c ≠ b) : (s.writeResult b v).x c = s.x c :=
  s.x_setX_of_ne v hne

/-- A result for a byte that names no register sets the flag only (10_state.md R23, D4). -/
theorem State.writeResult_of_not_names (s : State) {b : Byte} (v : Word) (h : ¬NamesRegister b) :
    s.writeResult b v = s.setZ (zeroFlag v) := by
  rw [State.writeResult, State.setX_of_not_names s b v h]

section
variable {r r2 : Byte} {s : State}

/-- Subtracting the other register takes off what was added. -/
theorem exec_sub_after_add_other (hr : NamesRegister r) (hne : r ≠ r2) (hfits : (s.x r).toNat + (s.x r2).toNat ≤ 65535) :
    exec (.sub r r2) (s.writeResult r (s.x r + s.x r2)) =
      .next ((s.writeResult r (s.x r + s.x r2)).writeResult r (s.x r)) := by
  have hr1 := s.x_writeResult_same (s.x r + s.x r2) hr
  have hr2 := s.x_writeResult_of_ne (s.x r + s.x r2) hne.symm
  have hsum := BitVec.toNat_add_of_lt (x := s.x r) (y := s.x r2) (by omega)
  rw [exec_sub_of_le (by rw [hr1, hr2, hsum]; omega), hr1, hr2, BitVec.add_sub_cancel]

/-- Subtracting a register from itself leaves zero. -/
theorem exec_sub_self (r : Byte) (s : State) : exec (.sub r r) s = .next (s.writeResult r 0) := by
  rw [exec_sub_of_le (Nat.le_refl _), BitVec.sub_self]
  rfl

/-- SUB on an unwritable destination, which reads zero, underflows iff the second value is not zero (D3, D5). -/
theorem exec_sub_of_not_names_of_pos (hr : ¬NamesRegister r) (hpos : 0 < (s.x r2).toNat) :
    exec (.sub r r2) s = .next (s.raiseFault (.sub r r2) .subUnderflow (some ⟨r, r2, s.x r, s.x r2⟩)) :=
  exec_sub_of_lt (by simpa [s.x_of_not_names r hr] using hpos)

theorem exec_sub_of_not_names_of_zero (hr : ¬NamesRegister r) (hzero : (s.x r2).toNat = 0) :
    exec (.sub r r2) s = .next (s.setZ true) := by
  have hx2 : s.x r2 = 0 := BitVec.eq_of_toNat_eq hzero
  rw [exec_sub_of_le (by omega), s.x_of_not_names r hr, hx2, s.writeResult_of_not_names _ hr]
  rfl

end

/-- Settles O35: by whether the destination can be written, then by whether the other byte is the same or the second
value is zero. -/
theorem addThenSubRestores : Obligations.AddThenSubRestores := by
  intro r r2 s hfits
  have hadd := exec_add_of_fits hfits
  by_cases hr : NamesRegister r
  · by_cases hsame : r = r2
    · subst hsame
      refine ⟨_, _, hadd, exec_sub_self r _, fun _ hne => absurd rfl hne, fun _ _ => ⟨?_, ?_, rfl, ?_⟩, (absurd hr ·)⟩
      · rw [s.x_writeResult_same _ hr, BitVec.toNat_add_of_lt (by omega), Nat.two_mul]
      · rw [State.x_writeResult_same _ _ hr]
      · rw [State.writeResult_fault, State.writeResult_fault]
    · refine ⟨_, _, hadd, exec_sub_after_add_other hr hsame hfits, fun _ _ => ⟨?_, ?_, ?_⟩, fun _ h => absurd h hsame,
        (absurd hr ·)⟩
      · rw [State.x_writeResult_same _ _ hr]
      · rw [State.writeResult_z_iff]
      · rw [State.writeResult_fault, State.writeResult_fault]
  · rw [s.writeResult_of_not_names _ hr] at hadd
    by_cases hzero : (s.x r2).toNat = 0
    · exact ⟨_, _, hadd, exec_sub_of_not_names_of_zero hr hzero, (absurd · hr), (absurd · hr),
        fun _ => ⟨fun _ => rfl, fun hpos => absurd hzero hpos.ne', fun _ => ⟨rfl, rfl⟩⟩⟩
    · exact ⟨_, _, hadd, exec_sub_of_not_names_of_pos hr (Nat.pos_of_ne_zero hzero), (absurd · hr), (absurd · hr),
        fun _ => ⟨fun _ => rfl, fun _ => ⟨rfl, rfl⟩, fun h => absurd h hzero⟩⟩

end Sys2Proof.Machine
end

section
/-! Control transfer (42_control_transfer.md): a jump is `setPc` when taken and nothing when not, so every jump has one frame,
and a conditional jump is settled by the flag that takes it. -/

namespace Sys2Proof.Machine

/-! ## A jump: its frame, its `pc` -/

theorem State.setPc_frame (s : State) (w : Word) : JumpFrame s (s.setPc w) :=
  ⟨fun _ => rfl, rfl, ⟨rfl, rfl⟩, fun _ => rfl, ⟨fun _ => rfl, rfl, rfl⟩, rfl, rfl⟩

/-- Taken or not, a conditional jump changes at most `pc` (R171, R172, R174, R175). -/
theorem State.jumpIf_frame (s : State) (taken : Bool) (w : Word) : JumpFrame s (s.jumpIf taken w) := by
  cases taken with
  | true => exact s.setPc_frame w
  | false => exact s.setPc_frame s.pc

theorem State.jumpIf_pc_of_taken (s : State) {taken : Bool} (w : Word) (h : taken = true) : (s.jumpIf taken w).pc = w := by
  rw [State.jumpIf, if_pos h, State.setPc_pc]

theorem State.jumpIf_of_not_taken (s : State) {taken : Bool} (w : Word) (h : taken = false) : s.jumpIf taken w = s :=
  if_neg (Bool.eq_false_iff.mp h)

/-- A target read from a register is 0 for the byte 0 (10_state.md R22). -/
theorem State.and_zero_of_eq_x (s : State) {r : Byte} {w : Word} (h : w = s.x r) : w = s.x r ∧ (r = 0 → w = 0) :=
  ⟨h, fun hr => by rw [h, hr, State.x_zero]⟩

/-! ## The statements -/

/-- Settles O37: the two jumps take the same target, under the flag and under its negation. -/
theorem conditionalAbsoluteJumps : Obligations.ConditionalAbsoluteJumps := by
  refine fun lo hi => ⟨?jzBytes, ?jnzBytes, fun s =>
    ⟨⟨_, exec_jz _ s, fun hz => ?jzTaken, fun hz => ?jzFalls, s.jumpIf_frame _ _⟩,
      ⟨_, exec_jnz _ s, fun hz => ?jnzTaken, fun hz => ?jnzFalls, s.jumpIf_frame _ _⟩⟩⟩
  case jzBytes | jnzBytes => simp only [encode, loByte_joinBytes, hiByte_joinBytes]
  case jzTaken => rw [s.jumpIf_pc_of_taken _ hz, joinBytes_toNat]
  case jzFalls => rw [s.jumpIf_of_not_taken _ hz]
  case jnzTaken => rw [s.jumpIf_pc_of_taken _ (congrArg not hz), joinBytes_toNat]
  case jnzFalls => rw [s.jumpIf_of_not_taken _ (congrArg not hz)]

/-- Settles O38: by whether the register byte names a register, as the read port does. -/
theorem jmprJumpsToTheRegister : Obligations.JmprJumpsToTheRegister := by
  refine fun r => ⟨rfl, fun s => ⟨_, exec_jmpr r s, fun k hk hr => ?named, s.x_of_not_names r, s.setPc_frame _⟩⟩
  case named =>
    rw [State.setPc_pc, s.x_of_names r (by omega)]
    simp only [hr, Fin.getElem_fin]

/-- Settles O39: the target is the value read, under the flag and under its negation. -/
theorem conditionalRegisterJumps : Obligations.ConditionalRegisterJumps := by
  refine fun r => ⟨rfl, rfl, fun s =>
    ⟨⟨_, exec_jzr r s, fun hz => ?jzrTaken, fun hz => ?jzrFalls, s.jumpIf_frame _ _⟩,
      ⟨_, exec_jnzr r s, fun hz => ?jnzrTaken, fun hz => ?jnzrFalls, s.jumpIf_frame _ _⟩⟩⟩
  case jzrTaken => exact s.and_zero_of_eq_x (s.jumpIf_pc_of_taken _ hz)
  case jzrFalls => rw [s.jumpIf_of_not_taken _ hz]
  case jnzrTaken => exact s.and_zero_of_eq_x (s.jumpIf_pc_of_taken _ (congrArg not hz))
  case jnzrFalls => rw [s.jumpIf_of_not_taken _ (congrArg not hz)]

/-- Settles O36: the target is the operand, low byte first. -/
theorem jmpSetsPc : Obligations.JmpSetsPc := by
  refine fun lo hi => ⟨?bytes, fun s => ⟨_, exec_jmp _ s, joinBytes_toNat hi lo, s.setPc_frame _⟩⟩
  case bytes => simp only [encode, loByte_joinBytes, hiByte_joinBytes]

end Sys2Proof.Machine
end

section
/-! Loads and stores (43_load_store.md): a load is the result of one word read, a store to an address that is no port is one
word write, and a word read gives back the word written. A store to a port leaves plain memory alone. -/

namespace Sys2Proof.Machine

/-! ## Words of plain memory -/

/-- A word is its two bytes, the low one first (20_memory.md R53, R58). -/
theorem State.readWord_toNat (s : State) (a : Word) :
    (s.readWord a).toNat = (s.readByte a).toNat + 256 * (s.readByte (a + 1)).toNat :=
  joinBytes_toNat _ _

theorem State.readByte_writeWord_lo (s : State) (a v : Word) : (s.writeWord a v).readByte a = loByte v := by
  rw [s.readByte_writeWord, if_pos rfl]

theorem State.readByte_writeWord_hi (s : State) (a v : Word) : (s.writeWord a v).readByte (a + 1) = hiByte v := by
  rw [s.readByte_writeWord, if_neg (word_add_one_ne a), if_pos rfl]

theorem State.readByte_writeWord_of_ne (s : State) {a b : Word} (v : Word) (hlo : b ≠ a) (hhi : b ≠ a + 1) :
    (s.writeWord a v).readByte b = s.readByte b := by
  rw [s.readByte_writeWord, if_neg hlo, if_neg hhi]

/-- A word reads as last written, at 0xFFFF too, where it wraps (D8). -/
theorem State.readWord_writeWord_same (s : State) (a v : Word) : (s.writeWord a v).readWord a = v := by
  rw [State.readWord, s.readByte_writeWord_lo, s.readByte_writeWord_hi, joinBytes_hi_lo]

/-! ## The routed store and the load -/

/-- A store to a port touches no plain memory (20_memory.md R62), whichever port and whether or not the five are distinct. -/
theorem State.routerStore_mem_of_isPort (s : State) {a : Word} (v : Word) (hport : s.isPort a = true) :
    (s.routerStore a v).mem = s.mem := by
  obtain ⟨-, h⟩ | ⟨-, -, h⟩ | ⟨-, -, -, h⟩ | ⟨-, -, -, -, h⟩ | ⟨-, -, -, -, -, h⟩ | ⟨hplain, -⟩ := s.routerStore_cases a v
  case inr.inr.inr.inr.inr => exact absurd (hport.symm.trans hplain) (by decide)
  all_goals rw [h]; rfl

/-- A load from `a`, in either form, is the result of the word of plain memory there (R190, R191). -/
theorem exec_of_loadForm {i : Instr} {r : Byte} {a : Word} {s : State}
    (h : i = .ldAbs r a ∨ ∃ r2, i = .ldReg r r2 ∧ a = s.x r2) :
    exec i s = .next (s.writeResult r (s.readWord a)) := by
  obtain rfl | ⟨r2, rfl, rfl⟩ := h
  · exact exec_ldAbs r a s
  · exact exec_ldReg r r2 s

/-! ## The statements -/

/-- Settles O41: a load's result is the word read, and it is zero iff both its bytes are. -/
theorem loadsReadPlainMemory : Obligations.LoadsReadPlainMemory := by
  refine ⟨fun r lo hi => ?absBytes, fun _ _ => rfl, fun i r a s hload =>
    ⟨_, exec_of_loadForm hload, fun hr => ?value, ?flag, s.writeResult_frame r _⟩⟩
  case absBytes => simp only [encode, loByte_joinBytes, hiByte_joinBytes]
  case value => rw [s.x_writeResult_same _ hr, s.readWord_toNat]
  case flag =>
    rw [s.writeResult_z_iff, s.readWord_toNat]
    omega

/-- Settles O42: the routed store is the word write, whose two bytes are those of the value. -/
theorem plainStoresWriteTwoBytes : Obligations.PlainStoresWriteTwoBytes := by
  refine ⟨fun r lo hi => ?absBytes, fun _ _ => rfl, fun i s a v hstore hplain => ?store⟩
  case absBytes => simp only [encode, loByte_joinBytes, hiByte_joinBytes]
  case store =>
    have hexec := exec_of_storeForm hstore
    rw [s.routerStore_plain a v hplain] at hexec
    refine ⟨_, hexec, ?low, ?high, fun b => s.readByte_writeWord_of_ne v, coreFrame_of_storeForm hstore hexec,
      ⟨fun _ => rfl, rfl, rfl⟩, rfl⟩
    case low => rw [s.readByte_writeWord_lo, loByte_toNat]
    case high => rw [s.readByte_writeWord_hi, hiByte_toNat]

/-- Settles O48: the load answers the word read after the routed store, by whether that store was routed to plain memory or
to a port. -/
theorem loadAfterStore : Obligations.LoadAfterStore := by
  intro i j s t a v r hstore hexec hr hload
  rw [exec_of_storeForm hstore] at hexec
  cases hexec
  refine ⟨_, exec_of_loadForm (hload.imp_right fun ⟨r2, hj, ha⟩ => ⟨r2, hj, ha.symm⟩), fun hplain => ?plain,
    fun hport => ?port⟩
  case plain => rw [State.x_writeResult_same _ _ hr, s.routerStore_plain a v hplain, s.readWord_writeWord_same]
  case port =>
    have hmem := s.routerStore_mem_of_isPort v hport
    rw [State.x_writeResult_same _ _ hr, State.readWord_toNat, State.readByte_congr hmem, State.readByte_congr hmem]

end Sys2Proof.Machine
end

section
/-! Text output (44_output.md): the search for a string's zero byte, said in the addresses it looks at, and from it both
outcomes of PRTSTR; the one event of OUT; and the only way a step has no successor state. -/

namespace Sys2Proof.Machine

/-! ## The string at an address -/

/-- The byte `k + 1` further on is the byte `k` further on from the next address, past 0xFFFF too (D8). -/
theorem word_add_one_add_ofNat (a : Word) (k : Nat) : a + 1 + BitVec.ofNat 16 k = a + BitVec.ofNat 16 (k + 1) := by
  rw [BitVec.add_assoc, Nat.add_comm k 1, BitVec.ofNat_add]
  rfl

/-- From any address every address is reached by going up fewer than 65536 bytes. -/
theorem forall_word_iff_forall_offset (p : Word → Prop) (a : Word) :
    (∀ k < 65536, p (a + BitVec.ofNat 16 k)) ↔ ∀ b, p b := by
  refine ⟨fun h b => ?_, fun h k _ => h _⟩
  have hb := h (b - a).toNat (b - a).isLt
  rwa [BitVec.ofNat_toNat, BitVec.setWidth_eq, BitVec.add_comm, BitVec.sub_add_cancel] at hb

section
variable {s : State} {a : Word}

theorem State.stringAt_succ_of_zero (n : Nat) (h : s.readByte a = 0) : s.stringAt (n + 1) a = some [] :=
  if_pos h

theorem State.stringAt_succ_of_ne_zero (n : Nat) (h : s.readByte a ≠ 0) :
    s.stringAt (n + 1) a = (s.stringAt n (a + 1)).map (s.readByte a :: ·) :=
  if_neg h

end

/-- The search fails exactly when none of the bytes it looks at is zero. -/
theorem State.stringAt_eq_none_iff (s : State) (n : Nat) (a : Word) :
    s.stringAt n a = none ↔ ∀ k < n, s.readByte (a + BitVec.ofNat 16 k) ≠ 0 := by
  induction n generalizing a with
  | zero => exact iff_of_true rfl nofun
  | succ n ih =>
    rw [Nat.forall_lt_succ_left, BitVec.add_zero]
    by_cases hzero : s.readByte a = 0
    · simp [stringAt_succ_of_zero n hzero, hzero]
    · rw [stringAt_succ_of_ne_zero n hzero, Option.map_eq_none_iff, ih, and_iff_right hzero]
      simp only [word_add_one_add_ofNat]

/-- The search finds the first zero byte, `k` bytes on, and answers the `k` bytes before it in order. -/
theorem State.stringAt_of_first_zero {s : State} {n k : Nat} {a : Word} (hk : k < n)
    (hzero : s.readByte (a + BitVec.ofNat 16 k) = 0) (hbefore : ∀ j < k, s.readByte (a + BitVec.ofNat 16 j) ≠ 0) :
    s.stringAt n a = some ((List.range k).map fun j => s.readByte (a + BitVec.ofNat 16 j)) := by
  induction n generalizing k a with
  | zero => omega
  | succ n ih =>
    cases k with
    | zero =>
      rw [BitVec.add_zero] at hzero
      exact stringAt_succ_of_zero n hzero
    | succ k =>
      rw [Nat.forall_lt_succ_left, BitVec.add_zero] at hbefore
      obtain ⟨hhead, htail⟩ := hbefore
      simp only [← word_add_one_add_ofNat] at hzero htail
      rw [stringAt_succ_of_ne_zero n hhead, ih (by omega) hzero htail, List.range_succ_eq_map]
      simp only [Option.map_some, List.map_cons, List.map_map, Function.comp_def, word_add_one_add_ofNat, BitVec.add_zero]

/-! ## The two instructions -/

/-- Emitting changes the output trace and nothing else (50_interfaces.md R236). -/
theorem State.emitAll_frame (s : State) (es : List Event) :
    CoreFrame s (s.emitAll es) ∧ KeepsMem s (s.emitAll es) ∧ KeepsDisplay s (s.emitAll es) :=
  ⟨⟨fun _ => rfl, rfl, rfl, ⟨rfl, rfl⟩, rfl⟩, fun _ => rfl, fun _ => rfl, rfl, rfl⟩

theorem exec_prtstr_of_some {s : State} {a : Word} {bs : List Byte} (h : s.stringAt 65536 a = some bs) :
    exec (.prtstr a) s = .next (s.emitAll (bs.map Event.char)) := by
  simp only [exec, execPrtstr, h]

/-- PRTSTR hangs exactly when its search fails, and its search looks at all of plain memory. -/
theorem exec_prtstr_hangs_iff (a : Word) (s : State) :
    exec (.prtstr a) s = .fault .prtstrNeverCompletes ↔ s.stringAt 65536 a = none := by
  cases hstr : s.stringAt 65536 a with
  | some bs => simp [exec_prtstr_of_some hstr]
  | none => simp [exec, execPrtstr, hstr]

/-! ## The statements -/

/-- Settles O49: OUT is one emitted event. -/
theorem outEmitsTheRegisterValue : Obligations.OutEmitsTheRegisterValue :=
  fun r => ⟨rfl, fun s => ⟨_, exec_out r s, rfl, s.emitAll_frame _⟩⟩

/-- Settles O50: PRTSTR emits the string its search finds. -/
theorem prtstrEmitsUpToTheZeroByte : Obligations.PrtstrEmitsUpToTheZeroByte := by
  refine ⟨fun lo hi => ?bytes, fun addr s k hk hzero hbefore => ?text⟩
  case bytes => simp only [encode, loByte_joinBytes, hiByte_joinBytes]
  case text =>
    have hexec := exec_prtstr_of_some (State.stringAt_of_first_zero hk hzero hbefore)
    rw [List.map_map] at hexec
    exact ⟨_, hexec, rfl, s.emitAll_frame _⟩

/-- Settles O51: the search over 65536 bytes looks at every address once. -/
theorem prtstrHangsExactlyWithoutAZeroByte : Obligations.PrtstrHangsExactlyWithoutAZeroByte := by
  intro addr s
  rw [exec_prtstr_hangs_iff, s.stringAt_eq_none_iff, forall_word_iff_forall_offset (s.readByte · ≠ 0)]

/-- Settles O7: of the instructions only PRTSTR can end without a next state, and its opcode is the byte at `pc`. -/
theorem stepAlwaysAnswersButForPrtstrHang : Obligations.StepAlwaysAnswersButForPrtstrHang := by
  intro s
  cases hrun : s.running with
  | false => exact .inl ⟨s, step_halted hrun⟩
  | true =>
    rw [step_running hrun]
    obtain ⟨t, hnext⟩ | ⟨addr, hi, -, hhang⟩ := exec_next_or_prtstr_hang s.fetchInstr.1 s.fetchInstr.2
    · exact .inl ⟨t.endStep, by rw [hnext]; rfl⟩
    · have hopcode : s.readByte s.pc = 0x0D := by rw [← s.fetchInstr_opcode, hi]; rfl
      have hmem : ∀ a : Word, s.readByte a ≠ 0 := by
        rw [hi, prtstrHangsExactlyWithoutAZeroByte, s.fetchInstr_state] at hhang
        exact hhang
      exact .inr ⟨rfl, hopcode, hmem, by rw [hhang]; rfl⟩

end Sys2Proof.Machine
end

section
/-! The text of a number (44_output.md R210, D16): its characters are the digits Mathlib's `Nat.digits` gives, highest first,
so what the statement asks of the numeral is what the library proves of the digits. -/

namespace Sys2Proof.Machine

/-- The character of a decimal digit. -/
def asciiDigit (d : Nat) : Byte := BitVec.ofNat 8 (0x30 + d)

theorem asciiDigit_toNat {d : Nat} (h : d < 10) : (asciiDigit d).toNat = 0x30 + d := by
  rw [asciiDigit, BitVec.toNat_ofNat]
  omega

theorem decDigits_of_lt {n : Nat} (fuel : Nat) (h : n < 10) : decDigits (fuel + 1) n = [asciiDigit n] :=
  if_pos h

theorem decDigits_of_le {n : Nat} (fuel : Nat) (h : 10 ≤ n) :
    decDigits (fuel + 1) n = decDigits fuel (n / 10) ++ [asciiDigit (n % 10)] :=
  if_neg (by omega)

/-- With enough fuel, the characters of a positive number are its decimal digits, highest first. -/
theorem decDigits_eq_digits {fuel n : Nat} (hpos : n ≠ 0) (hfits : n < 10 ^ fuel) :
    decDigits fuel n = (Nat.digits 10 n).reverse.map asciiDigit := by
  induction fuel generalizing n with
  | zero => omega
  | succ fuel ih =>
    obtain hlt | hle := Nat.lt_or_ge n 10
    · rw [decDigits_of_lt fuel hlt, Nat.digits_of_lt 10 n hpos hlt]
      rfl
    · rw [decDigits_of_le fuel hle, ih (by omega) (by omega), Nat.digits_def' (by decide) (Nat.pos_of_ne_zero hpos)]
      simp

/-- Reading the characters highest first, as the statement does, is the library's value of a list of digits. -/
theorem foldl_asciiDigit {ds : List Nat} (hdigits : ∀ d ∈ ds, d < 10) :
    (ds.reverse.map asciiDigit).foldl (fun n d => 10 * n + (d.toNat - 0x30)) 0 = Nat.ofDigits 10 ds := by
  rw [List.foldl_map, List.foldl_reverse]
  induction ds with
  | nil => rfl
  | cons d ds ih =>
    rw [List.forall_mem_cons] at hdigits
    obtain ⟨hd, hds⟩ := hdigits
    rw [List.foldr_cons, ih hds, asciiDigit_toNat hd, Nat.ofDigits_cons, Nat.add_sub_cancel_left, Nat.add_comm]

theorem asciiDigit_ne_zero_char {d : Nat} (hd : d < 10) (hne : d ≠ 0) : asciiDigit d ≠ 0x30 := by
  intro h
  have hval := asciiDigit_toNat hd
  rw [h] at hval
  exact hne (Nat.add_left_cancel hval).symm

theorem decText_zero : decText 0 = [0x30] := rfl

/-- The numeral of a positive number, in the library's digits. -/
theorem decText_eq_digits {v : Word} (hpos : v.toNat ≠ 0) : decText v = (Nat.digits 10 v.toNat).reverse.map asciiDigit :=
  decDigits_eq_digits hpos (by omega)

/-- Settles O55: zero by evaluation, any other number by the library's facts about its digits. -/
theorem decimalTextIsTheNumeral : Obligations.DecimalTextIsTheNumeral := by
  intro v
  by_cases hv : v = 0
  · subst hv
    rw [decText_zero]
    decide
  have hpos : v.toNat ≠ 0 := fun h => hv (BitVec.eq_of_toNat_eq h)
  have hdigits : ∀ d ∈ Nat.digits 10 v.toNat, d < 10 := fun d => Nat.digits_lt_base (by decide)
  have hnonempty : Nat.digits 10 v.toNat ≠ [] := Nat.digits_ne_nil_iff_ne_zero.mpr hpos
  rw [decText_eq_digits hpos]
  refine ⟨?value, ?range, ?nonempty, ?short, fun _ => ?noLeadingZero, fun h => absurd h hv⟩
  case value => rw [foldl_asciiDigit hdigits, Nat.ofDigits_digits]
  case range =>
    simp only [List.mem_map, List.mem_reverse]
    rintro _ ⟨d, hd, rfl⟩
    have hlt := hdigits d hd
    rw [asciiDigit_toNat hlt]
    omega
  case nonempty =>
    rw [List.length_map, List.length_reverse]
    exact List.length_pos_iff.mpr hnonempty
  case short =>
    rw [List.length_map, List.length_reverse, Nat.digits_length_le_iff (by decide)]
    omega
  case noLeadingZero =>
    rw [List.head?_map, List.head?_reverse, List.getLast?_eq_some_getLast hnonempty, Option.map_some, ne_eq, Option.some_inj]
    exact asciiDigit_ne_zero_char (hdigits _ (List.getLast_mem hnonempty)) (Nat.getLast_digit_ne_zero 10 hpos)

end Sys2Proof.Machine
end

section
/-! System instructions (45_system.md): the step of a one-byte instruction, and from it NOP and HALT; a halted CORE and its
later step requests; and which events each instruction appends to the output trace (50_interfaces.md R236). -/

namespace Sys2Proof.Machine

/-! ## The step of a one-byte instruction -/

/-- An opcode byte without operands is fetched alone (30_encoding.md R91). -/
theorem State.fetchInstr_of_shape_n {s : State} {i : Instr} (hshape : shapeOf (s.readByte s.pc) = .n i) :
    s.fetchInstr = (i, s.setPc (s.pc + 1)) := by
  rw [State.fetchInstr]
  simp only [State.fetch8, hshape]

theorem step_of_shape_n {s : State} {i : Instr} (hrun : s.running = true) (hshape : shapeOf (s.readByte s.pc) = .n i) :
    step s = completeStep (exec i (s.setPc (s.pc + 1))) := by
  rw [step_running hrun, State.fetchInstr_of_shape_n hshape]

/-- The end of a step changes nothing where register 0 is already zero (10_state.md R21). -/
theorem State.endStep_of_zero {s : State} (hzero : s.regs[0] = 0) : s.endStep = s := by
  have hregs : s.regs.set 0 0 = s.regs := by rw [← hzero, Vector.set_getElem_self]
  rw [State.endStep, hregs]

theorem step_nop {s : State} (hzero : s.regs[0] = 0) (hrun : s.running = true) (hop : s.readByte s.pc = 0x00) :
    step s = .next (s.setPc (s.pc + 1)) := by
  rw [step_of_shape_n hrun (i := .nop) (by rw [hop]; rfl), exec_nop]
  exact congrArg Host.Outcome.next (State.endStep_of_zero hzero)

theorem step_halt {s : State} (hzero : s.regs[0] = 0) (hrun : s.running = true) (hop : s.readByte s.pc = 0xFF) :
    step s = .next (s.setPc (s.pc + 1)).halt := by
  rw [step_of_shape_n hrun (i := .halt) (by rw [hop]; rfl), exec_halt]
  exact congrArg Host.Outcome.next (State.endStep_of_zero hzero)

/-! ## A halted CORE -/

/-- Step requests do nothing to a halted CORE, however many (50_interfaces.md R231, D20). -/
theorem applyMoves_steps_of_halted {s : State} (hhalted : s.running = false) (n : Nat) :
    applyMoves (List.replicate n .stepEn) s = .next s := by
  induction n with
  | zero => rfl
  | succ n ih =>
    have hstep : applyMove .stepEn s = .next s := step_halted hhalted
    rw [List.replicate_succ, applyMoves, hstep]
    exact ih

theorem State.cleanHalt_of_halted {s : State} (hhalted : s.running = false) (hcause : s.fault.cause = .none) :
    s.cleanHalt = true := by
  rw [State.cleanHalt, hhalted, hcause]
  rfl

/-! ## The statements about NOP and HALT -/

/-- Settles O23: the step of HALT is `pc` advanced and `running` cleared, and a step of a halted CORE does nothing. -/
theorem haltStopsTheCoreForGood : Obligations.HaltStopsTheCoreForGood := by
  refine ⟨rfl, fun s => ⟨_, exec_halt s, ?frame⟩, fun s hinv hrun hop => ?step⟩
  case frame => exact ⟨rfl, fun _ => rfl, rfl, rfl, rfl, fun _ => rfl, ⟨fun _ => rfl, rfl, rfl⟩, rfl, rfl⟩
  case step =>
    obtain ⟨-, -, hzero, -, -, hcause⟩ := hinv
    exact ⟨_, step_halt hzero hrun hop, rfl, hcause hrun, State.cleanHalt_of_halted rfl (hcause hrun), fun _ => rfl,
      applyMoves_steps_of_halted rfl⟩

/-- Settles O24: the step of NOP is `pc` advanced. -/
theorem nopChangesNothing : Obligations.NopChangesNothing := by
  refine ⟨rfl, fun s => ⟨s, exec_nop s, rfl⟩, fun s hinv hrun hop => ?_⟩
  obtain ⟨-, -, hzero, -⟩ := hinv
  exact step_nop hzero hrun hop

/-! ## The events of an instruction -/

/-- The events the instruction `i` may append on `s`: one source for each kind of event (44_output.md R210, R211;
20_memory.md R63, R66). -/
inductive Emits (s : State) (i : Instr) : List Event → Prop where
  | nothing : Emits s i []
  | number (r : Byte) (hi : i = .out r) : Emits s i [.dec (s.x r)]
  | string (a : Word) (bs : List Byte) (hi : i = .prtstr a) : Emits s i (bs.map Event.char)
  | character (v : Word) (hstore : StoreForm i s s.params.portCharOut v) : Emits s i [.char (loByte v)]
  | display (v : Word) (hstore : StoreForm i s s.params.portVramData v) :
      Emits s i [.displayWrite s.vramCursor (loByte v)]

@[simp] theorem State.writeResult_trace (s : State) (b : Byte) (v : Word) : (s.writeResult b v).trace = s.trace := by
  simp [State.writeResult]

/-- A two-register arithmetic instruction emits nothing, by its result or by fault entry. -/
theorem arith_trace {i : Instr} {r1 r2 : Byte} {c : Cause} {bad : Nat → Nat → Bool} {f : Nat → Nat → Nat} {s t : State}
    (h : arith i r1 r2 c bad f s = .next t) : t.trace = s.trace := by
  rw [arith_eq] at h
  split at h
  · cases h; rfl
  · cases h; exact s.writeResult_trace r1 _

theorem State.jumpIf_trace (s : State) (taken : Bool) (w : Word) : (s.jumpIf taken w).trace = s.trace := by
  cases taken <;> rfl

theorem mayEmit_of_storeForm {i : Instr} {s : State} {a v : Word} (hstore : StoreForm i s a v) : mayEmit i = true := by
  obtain ⟨r, rfl, -⟩ | ⟨r1, r2, rfl, -⟩ := hstore <;> rfl

/-- An instruction outside the list of sources appends nothing (45_system.md R223). -/
theorem exec_trace_of_not_mayEmit {i : Instr} {s t : State} (hi : mayEmit i = false) (h : exec i s = .next t) :
    t.trace = s.trace := by
  cases i with
  | out | prtstr | stAbs | stReg => cases hi
  | nop | halt | illegal | cmp | jmp | jmpr => cases h; rfl
  | ldi | lui | mov | inc | ldAbs | ldReg => cases h; exact s.writeResult_trace _ _
  | add r1 r2 => exact arith_trace ((exec_add r1 r2 s).symm.trans h)
  | sub r1 r2 => exact arith_trace ((exec_sub r1 r2 s).symm.trans h)
  | mul r1 r2 => exact arith_trace ((exec_mul r1 r2 s).symm.trans h)
  | div r1 r2 => exact arith_trace ((exec_div r1 r2 s).symm.trans h)
  | mod r1 r2 => exact arith_trace ((exec_mod r1 r2 s).symm.trans h)
  | jz | jnz | jzr | jnzr => cases h; exact s.jumpIf_trace _ _

/-- A store emits at the character port and at the VRAM-data port, and nowhere else (20_memory.md R62 to R68). -/
theorem State.routerStore_emits {i : Instr} {s : State} {a v : Word} (hstore : StoreForm i s a v) :
    ∃ es, (s.routerStore a v).trace = s.trace ++ es ∧ Emits s i es := by
  obtain ⟨rfl, h⟩ | ⟨-, -, h⟩ | ⟨-, -, -, h⟩ | ⟨-, -, -, rfl, h⟩ | ⟨-, -, -, -, -, h⟩ | ⟨-, h⟩ := s.routerStore_cases a v
  case inl => exact ⟨_, congrArg State.trace h, .character v hstore⟩
  case inr.inr.inr.inl => exact ⟨_, congrArg State.trace h, .display v hstore⟩
  all_goals
    refine ⟨[], ?_, .nothing⟩
    rw [h, List.append_nil]
    rfl

/-- Every instruction appends to the output trace the events of one of its sources. -/
theorem exec_emits {i : Instr} {s t : State} (h : exec i s = .next t) : ∃ es, t.trace = s.trace ++ es ∧ Emits s i es := by
  cases hi : mayEmit i with
  | false => exact ⟨[], by rw [exec_trace_of_not_mayEmit hi h, List.append_nil], .nothing⟩
  | true =>
    cases i with
    | out r => cases h; exact ⟨_, rfl, .number r rfl⟩
    | prtstr a =>
      cases hstr : s.stringAt 65536 a with
      | some bs =>
        rw [exec_prtstr_of_some hstr] at h
        cases h
        exact ⟨_, rfl, .string a bs rfl⟩
      | none =>
        rw [(exec_prtstr_hangs_iff a s).mpr hstr] at h
        cases h
    | stAbs r a => cases h; exact State.routerStore_emits (.inl ⟨r, rfl, rfl⟩)
    | stReg r1 r2 => cases h; exact State.routerStore_emits (.inr ⟨r1, r2, rfl, rfl, rfl⟩)
    | _ => cases hi

/-- Settles O52: by the source of the events appended, each of which gives one kind of event. -/
theorem traceGrowsOnlyByItsSources : Obligations.TraceGrowsOnlyByItsSources := by
  intro i s t h
  obtain ⟨es, htrace, hes⟩ := exec_emits h
  refine ⟨es, htrace, ?_⟩
  cases hes with
  | nothing => simp
  | number r hi => simp [hi, mayEmit]
  | string a bs hi => simp [hi, mayEmit]
  | character v hstore => simpa [mayEmit_of_storeForm hstore] using .inr ⟨v, hstore, rfl⟩
  | display v hstore => simpa [mayEmit_of_storeForm hstore] using ⟨v, hstore, rfl⟩

end Sys2Proof.Machine
end

section
/-! Fatal faults (60_exceptions.md R260, R265): every fault condition completes in a fault entry, and a halted CORE keeps its
registers, `pc`, `Z` and fault record through every sequence of host moves without reset. -/

namespace Sys2Proof.Machine

/-! ## Raising a fault -/

/-- An instruction on its fault condition answers a next state: the one that can hang, PRTSTR, has no fault condition. -/
theorem exec_answers_of_faultCause {i : Instr} {s : State} (hcause : faultCauseOf s i ≠ .none) : ∃ t, exec i s = .next t := by
  obtain hnext | ⟨addr, rfl, -⟩ := exec_next_or_prtstr_hang i s
  · exact hnext
  · exact absurd rfl hcause

theorem exec_fault_of_cause {i : Instr} {s t : State} (hcause : faultCauseOf s i ≠ .none) (h : exec i s = .next t) :
    t.fault = ⟨faultCauseOf s i, faultInfoOf s i⟩ :=
  (exec_fault h).trans (if_neg hcause)

theorem exec_halted_of_cause {i : Instr} {s t : State} (hcause : faultCauseOf s i ≠ .none) (h : exec i s = .next t) :
    t.running = false := by
  rw [← Bool.not_eq_true, exec_running h]
  exact fun ⟨_, _, hnone⟩ => hcause hnone

/-- Settles O20: both directions read off the fault record after the execute phase. -/
theorem fatalFaultListIsClosed : Obligations.FatalFaultListIsClosed := by
  refine fun i s => ⟨fun hcause => ?_, fun hnone t h => (exec_fault h).trans (if_pos hnone)⟩
  obtain ⟨t, h⟩ := exec_answers_of_faultCause hcause
  exact ⟨t, h, congrArg FaultRecord.cause (exec_fault_of_cause hcause h), exec_halted_of_cause hcause h⟩

/-! ## A halted CORE under the host's moves -/

theorem coreFrame_refl (s : State) : CoreFrame s s :=
  ⟨fun _ => rfl, rfl, rfl, ⟨rfl, rfl⟩, rfl⟩

theorem coreFrame_trans {s t u : State} (hst : CoreFrame s t) (htu : CoreFrame t u) : CoreFrame s u := by
  obtain ⟨hregs, hz, hpc, ⟨hrunning, hfault⟩, hparams⟩ := hst
  obtain ⟨hregs', hz', hpc', ⟨hrunning', hfault'⟩, hparams'⟩ := htu
  exact ⟨fun k => (hregs' k).trans (hregs k), hz'.trans hz, hpc'.trans hpc,
    ⟨hrunning'.trans hrunning, hfault'.trans hfault⟩, hparams'.trans hparams⟩

/-- The loader writes plain memory only (50_interfaces.md R234). -/
theorem State.loadBytes_coreFrame (s : State) (base : Word) (bytes : List Byte) : CoreFrame s (s.loadBytes base bytes) := by
  rw [State.loadBytes_eq]
  exact coreFrame_refl s

/-- A move of the host other than reset leaves a halted CORE as it was. -/
theorem applyMove_coreFrame_of_halted {m : HostMove} {s : State} (hhalted : s.running = false) (hm : m ≠ .reset) :
    ∃ t, applyMove m s = .next t ∧ CoreFrame s t := by
  cases m with
  | reset => exact absurd rfl hm
  | load base bytes => exact ⟨_, rfl, s.loadBytes_coreFrame base bytes⟩
  | stepEn => exact ⟨s, step_halted hhalted, coreFrame_refl s⟩
  | frameAck => exact ⟨s.ackFrame, rfl, coreFrame_refl s⟩

/-- So does every sequence of such moves, each of them completing. -/
theorem applyMoves_coreFrame_of_halted {ms : List HostMove} {s : State} (hhalted : s.running = false)
    (hms : ∀ m ∈ ms, m ≠ .reset) : ∃ t, applyMoves ms s = .next t ∧ CoreFrame s t := by
  induction ms generalizing s with
  | nil => exact ⟨s, rfl, coreFrame_refl s⟩
  | cons m ms ih =>
    rw [List.forall_mem_cons] at hms
    obtain ⟨hm, hrest⟩ := hms
    obtain ⟨t, hmove, hst⟩ := applyMove_coreFrame_of_halted hhalted hm
    obtain ⟨u, hmoves, htu⟩ := ih (applyMove_running_of_halted hhalted hmove hm) hrest
    exact ⟨u, by rw [applyMoves, hmove]; exact hmoves, coreFrame_trans hst htu⟩

/-- By the invariant no fault is recorded while the CORE runs (R265). -/
theorem State.halted_of_faulted {s : State} (hinv : s.Inv) (hcause : s.fault.cause ≠ .none) : s.running = false := by
  obtain ⟨-, -, -, -, -, hrun⟩ := hinv
  exact Bool.eq_false_iff.mpr fun hrunning => hcause (hrun hrunning)

/-- Settles O22: a recorded fault means a halted CORE, which only reset changes. -/
theorem faultIsFinalUntilReset : Obligations.FaultIsFinalUntilReset := by
  refine fun s hinv hcause => ⟨fun ms hms => ?_, s.hostReset, rfl, rfl, rfl⟩
  have hhalted := State.halted_of_faulted hinv hcause
  obtain ⟨t, hmoves, hregs, hz, hpc, ⟨hrunning, hfault⟩, -⟩ := applyMoves_coreFrame_of_halted hhalted hms
  exact ⟨t, hmoves, hrunning.trans hhalted, hfault, hpc, hregs, hz⟩

end Sys2Proof.Machine
end

section
/-! The decoder and the encoder are inverse (30_encoding.md sections 1 and 2): the encoder writes the bytes of each shape of the
opcode map, and the decoder reads them back. -/

namespace Sys2Proof.Machine

/-! ## Decode of encode -/

section
variable {op : Byte}

theorem decode_a_bytes {f : Word → Instr} (h : shapeOf op = .a f) (addr : Word) (tail : List Byte) :
    decode (op :: loByte addr :: hiByte addr :: tail) = .ok (f addr, tail) := by
  rw [decode_a h, joinBytes_hi_lo]

theorem decode_ra_bytes {f : Byte → Word → Instr} (h : shapeOf op = .ra f) (r : Byte) (addr : Word) (tail : List Byte) :
    decode (op :: r :: loByte addr :: hiByte addr :: tail) = .ok (f r addr, tail) := by
  rw [decode_ra h, joinBytes_hi_lo]

end

/-- Settles O1: each instruction's bytes by the decoder's equation for its format. -/
theorem decodeOfEncodeGivesTheInstruction : Obligations.DecodeOfEncodeGivesTheInstruction := by
  intro i tail hwf
  cases i with
  | nop | halt => exact decode_n rfl tail
  | ldi r imm8 | lui r imm8 => exact decode_ri rfl r imm8 tail
  | mov r1 r2 | add r1 r2 | sub r1 r2 | mul r1 r2 | div r1 r2 | mod r1 r2 | cmp r1 r2 | ldReg r1 r2 | stReg r1 r2 =>
    exact decode_rr rfl r1 r2 tail
  | jmpr r | jzr r | jnzr r | out r | inc r => exact decode_r rfl r tail
  | jmp addr | jz addr | jnz addr | prtstr addr => exact decode_a_bytes rfl addr tail
  | ldAbs r addr | stAbs r addr => exact decode_ra_bytes rfl r addr tail
  | illegal op =>
    obtain ⟨hlow, hhigh⟩ := wellFormed_illegal.mp hwf
    exact decode_n (shapeOf_of_illegal hlow hhigh) tail

/-! ## Encode of decode -/

/-- The encoder writes the instructions of a shape as the opcode byte `op` and the shape's operands in the order of
30_encoding.md R92, an address low byte first (R94). -/
def EncodedUnder (op : Byte) : Shape → Prop
  | .n i => encode i = [op]
  | .r f => ∀ r, encode (f r) = [op, r]
  | .ri f => ∀ r imm8, encode (f r imm8) = [op, r, imm8]
  | .rr f => ∀ r1 r2, encode (f r1 r2) = [op, r1, r2]
  | .a f => ∀ addr, encode (f addr) = [op, loByte addr, hiByte addr]
  | .ra f => ∀ r addr, encode (f r addr) = [op, r, loByte addr, hiByte addr]

/-- The encoder agrees with the opcode map, row by row. -/
theorem encodedUnder_shapeOf (op : Byte) : EncodedUnder op (shapeOf op) := by
  have hop : op = BitVec.ofNat 8 op.toNat := by simp
  unfold shapeOf
  split
  case h_25 => exact rfl
  all_goals
    next hcode =>
      rw [hcode] at hop
      subst hop
      dsimp only [EncodedUnder]
      intros
      rfl

/-- What decodes is the encoding of the instruction, followed by the bytes left over. -/
theorem eq_encode_append_of_decode {bs rest : List Byte} {i : Instr} (h : decode bs = .ok (i, rest)) :
    bs = encode i ++ rest := by
  cases bs with
  | nil => cases h
  | cons op operands =>
    have henc := encodedUnder_shapeOf op
    unfold decode at h
    dsimp only at h
    generalize shapeOf op = sh at h henc
    split at h <;> cases h
    case h_1 => rw [henc]; rfl
    case h_2 f r => rw [henc r]; rfl
    case h_3 f r imm8 => rw [henc r imm8]; rfl
    case h_4 f r1 r2 => rw [henc r1 r2]; rfl
    case h_5 f lo hi => rw [henc (joinBytes hi lo), loByte_joinBytes, hiByte_joinBytes]; rfl
    case h_6 f r lo hi => rw [henc r (joinBytes hi lo), loByte_joinBytes, hiByte_joinBytes]; rfl

/-- Settles O2: the decoder gives well-formed instructions, and the encoder its bytes back. -/
theorem decodeConsumesExactlyTheEncoding : Obligations.DecodeConsumesExactlyTheEncoding :=
  fun _ _ _ h => ⟨wellFormed_of_decode h, eq_encode_append_of_decode h⟩

/-! ## The length by the opcode byte -/

theorem head?_encode (i : Instr) : (encode i).head? = some (opcodeOf i) := by
  cases i <;> rfl

/-- The list of 30_encoding.md R95 gives an illegal opcode the length 1. -/
theorem lengthByOpcode_of_illegal {op : Byte} (hlow : 0x17 ≤ op.toNat) : lengthByOpcode op = 1 := by
  rw [lengthByOpcode, if_neg (by bv_omega), if_neg (by bv_omega), if_neg (by omega)]

/-- The list of R95 agrees with the formats of R96. -/
theorem lengthByOpcode_opcodeOf {i : Instr} (hwf : i.wellFormed = true) : lengthByOpcode (opcodeOf i) = instrLength i := by
  cases i with
  | illegal op => exact lengthByOpcode_of_illegal (wellFormed_illegal.mp hwf).1
  | _ => rfl

/-- What decodes under the opcode byte `op` is an instruction of that opcode, of the length R95 gives it. -/
theorem opcodeOf_and_instrLength_of_decode {op : Byte} {bs rest : List Byte} {i : Instr}
    (h : decode (op :: bs) = .ok (i, rest)) : opcodeOf i = op ∧ instrLength i = lengthByOpcode op := by
  have hop : opcodeOf i = op := by
    have hhead := congrArg List.head? (eq_encode_append_of_decode h)
    rw [List.head?_append, head?_encode] at hhead
    exact (Option.some.inj hhead).symm
  exact ⟨hop, by rw [← lengthByOpcode_opcodeOf (wellFormed_of_decode h), hop]⟩

/-- The format of an opcode byte in the opcode map has the length R95 gives the byte. -/
theorem format_length_shapeOf (op : Byte) : (shapeOf op).format.length = lengthByOpcode op := by
  have hlength {i : Instr} {fmt : Format} (h : formatOf i = fmt ∧ opcodeOf i = op ∧ i.wellFormed = true) :
      fmt.length = lengthByOpcode op := by
    obtain ⟨rfl, rfl, hwf⟩ := h
    exact (lengthByOpcode_opcodeOf hwf).symm
  have hspec := shapeOf_spec op
  generalize shapeOf op = sh at hspec
  cases sh with
  | n i => exact hlength hspec
  | r f | a f => exact hlength (hspec 0)
  | ri f | rr f | ra f => exact hlength (hspec 0 0)

/-- As many operand bytes as the format of the opcode byte takes are enough to decode. -/
theorem decode_of_format_length {op : Byte} {bs : List Byte} (h : (shapeOf op).format.length ≤ bs.length + 1) :
    ∃ i rest, decode (op :: bs) = .ok (i, rest) := by
  cases hshape : shapeOf op <;> rw [hshape] at h
  case n i => exact ⟨_, _, decode_n hshape bs⟩
  case r f =>
    match bs, h with
    | r :: rest, _ => exact ⟨_, _, decode_r hshape r rest⟩
  case ri f =>
    match bs, h with
    | r :: imm8 :: rest, _ => exact ⟨_, _, decode_ri hshape r imm8 rest⟩
  case rr f =>
    match bs, h with
    | r1 :: r2 :: rest, _ => exact ⟨_, _, decode_rr hshape r1 r2 rest⟩
  case a f =>
    match bs, h with
    | lo :: hi :: rest, _ => exact ⟨_, _, decode_a hshape lo hi rest⟩
  case ra f =>
    match bs, h with
    | r :: lo :: hi :: rest, _ => exact ⟨_, _, decode_ra hshape r lo hi rest⟩

/-- With an opcode byte there, a list of bytes fails to decode in one way only. -/
theorem eq_truncated_of_decode_error {op : Byte} {bs : List Byte} {e : DecodeError} (h : decode (op :: bs) = .error e) :
    e = .truncated op := by
  unfold decode at h
  dsimp only at h
  split at h <;> cases h
  rfl

theorem instrLength_pos (i : Instr) : 0 < instrLength i := by
  unfold instrLength
  cases formatOf i <;> decide

/-- Settles O3: enough bytes decode, to an instruction of the length of R95; and whatever decodes has at least that many. -/
theorem opcodeByteAloneFixesTheLength : Obligations.OpcodeByteAloneFixesTheLength := by
  refine fun op bs => ⟨fun hlong => ?enough, fun hshort => ?short⟩
  case enough =>
    obtain ⟨i, rest, hdec⟩ := decode_of_format_length (format_length_shapeOf op ▸ hlong)
    obtain ⟨hop, hlen⟩ := opcodeOf_and_instrLength_of_decode hdec
    have hencode : (encode i).length = lengthByOpcode op := (length_encode i).trans hlen
    have hrest : (op :: bs).drop (lengthByOpcode op) = rest := by
      rw [eq_encode_append_of_decode hdec, List.drop_left' hencode]
    rw [List.drop_cons (hlen ▸ instrLength_pos i)] at hrest
    exact ⟨i, hrest ▸ hdec, hencode, hop ▸ head?_encode i, hop, hlen⟩
  case short =>
    cases hdec : decode (op :: bs) with
    | error e => rw [eq_truncated_of_decode_error hdec]
    | ok decoded =>
      obtain ⟨i, rest⟩ := decoded
      have hbytes := congrArg List.length (eq_encode_append_of_decode hdec)
      have hlen := (opcodeOf_and_instrLength_of_decode hdec).2
      rw [List.length_cons, List.length_append, length_encode, hlen] at hbytes
      omega

end Sys2Proof.Machine
end

section
/-! The byte arrays (20_memory.md section 1): the cells listed are the bytes read that are not zero, so arrays in canonical form
with equal bytes are equal; and the loader's bytes, read back (50_interfaces.md R234). -/

namespace Sys2Proof.Machine

/-! ## Cells and bytes -/

/-- A byte that is not an unlisted one is listed. -/
theorem Memory.mem_of_read_ne {m : Memory} {a : Nat} (h : Memory.read m a ≠ unlistedByte) : (a, Memory.read m a) ∈ m := by
  induction m with
  | nil => exact absurd rfl h
  | cons c m ih =>
    rw [Memory.read_cons] at h ⊢
    by_cases hc : c.1 = a
    · rw [if_pos hc, ← hc]
      exact List.mem_cons_self
    · rw [if_neg hc] at h ⊢
      exact List.mem_cons_of_mem c (ih h)

/-- Where the addresses rise, a listed byte is the one read. -/
theorem Memory.read_of_mem {m : Memory} {c : Host.Cell} (hrise : m.Pairwise (fun c d => c.1 < d.1)) (hc : c ∈ m) :
    Memory.read m c.1 = c.2 := by
  induction m with
  | nil => cases hc
  | cons d m ih =>
    obtain ⟨hhead, htail⟩ := List.pairwise_cons.mp hrise
    rw [Memory.read_cons]
    obtain rfl | hc := List.mem_cons.mp hc
    · exact if_pos rfl
    · rw [if_neg (hhead c hc).ne, ih htail hc]

/-- The cells of an array in canonical form, by the bytes read. -/
theorem Memory.mem_iff_read {m : Memory} (hwf : Memory.wf m) (c : Host.Cell) :
    c ∈ m ↔ Memory.read m c.1 = c.2 ∧ c.2 ≠ unlistedByte := by
  obtain ⟨hrise, hcells⟩ := hwf
  refine ⟨fun hc => ⟨Memory.read_of_mem hrise hc, (hcells c hc).2⟩, fun ⟨hread, hne⟩ => ?_⟩
  rw [← hread] at hne
  simpa only [hread] using Memory.mem_of_read_ne hne

/-- An array in canonical form with the bytes of `n` lists no cell that `n` does not. -/
theorem Memory.mem_of_read_eq {m n : Memory} (hm : Memory.wf m) (hn : Memory.wf n)
    (h : ∀ a : Word, Memory.read m a.toNat = Memory.read n a.toNat) {c : Host.Cell} (hc : c ∈ m) : c ∈ n := by
  have hread := h (BitVec.ofNat 16 c.1)
  rw [BitVec.toNat_ofNat, Nat.mod_eq_of_lt (hm.2 c hc).1] at hread
  rw [Memory.mem_iff_read hn, ← hread]
  exact (Memory.mem_iff_read hm c).mp hc

/-- Settles O14: the two lists have the same cells and both rise. -/
theorem canonicalMemoriesAreExtensional : Obligations.CanonicalMemoriesAreExtensional := by
  intro m n hm hn h
  have hirrefl : Std.Irrefl fun c d : Host.Cell => c.1 < d.1 := ⟨fun c => lt_irrefl c.1⟩
  have hantisymm : Std.Antisymm fun c d : Host.Cell => c.1 < d.1 := ⟨fun c d hcd hdc => absurd hcd hdc.asymm⟩
  exact List.Pairwise.eq_of_mem_iff hm.1 hn.1 fun c =>
    ⟨Memory.mem_of_read_eq hm hn h, Memory.mem_of_read_eq hn hm fun a => (h a).symm⟩

/-! ## Words -/

/-- Settles O40: `joinBytes` in numbers, of two bytes of data or of two fetches. -/
theorem wordsAreLittleEndian : Obligations.WordsAreLittleEndian := by
  refine ⟨State.readWord_toNat, fun s => ⟨joinBytes_toNat _ _, ?_⟩⟩
  change s.setPc (s.pc + 1 + 1) = s.setPc (s.pc + 2)
  rw [BitVec.add_assoc]
  rfl

/-! ## The loader -/

/-- No address is reached again from the next one within a turn of the 65536 addresses. -/
theorem word_ne_add_one_add_ofNat {k : Nat} (a : Word) (hk : k + 1 < 65536) : a ≠ a + 1 + BitVec.ofNat 16 k := by
  rw [word_add_one_add_ofNat, ne_eq, BitVec.self_eq_add_right, ← BitVec.toNat_inj, BitVec.toNat_ofNat,
    Nat.mod_eq_of_lt hk]
  exact Nat.succ_ne_zero k

/-- The loader leaves the bytes it does not reach. -/
theorem State.readByte_loadBytes_of_ne {s : State} {base a : Word} {bs : List Byte}
    (h : ∀ k < bs.length, a ≠ base + BitVec.ofNat 16 k) : (s.loadBytes base bs).readByte a = s.readByte a := by
  induction bs generalizing s base with
  | nil => rfl
  | cons b bs ih =>
    rw [List.length_cons, Nat.forall_lt_succ_left, BitVec.add_zero] at h
    obtain ⟨hhead, htail⟩ := h
    simp only [← word_add_one_add_ofNat] at htail
    rw [State.loadBytes, ih htail, State.readByte_writeByte, if_neg hhead]

/-- The loader's bytes read back, as long as it does not come around to its own first byte. -/
theorem State.readByte_loadBytes {s : State} {base : Word} {bs : List Byte} (hlen : bs.length ≤ 65536) {k : Nat}
    (hk : k < bs.length) : (s.loadBytes base bs).readByte (base + BitVec.ofNat 16 k) = bs[k] := by
  induction bs generalizing s base k with
  | nil => cases hk
  | cons b bs ih =>
    rw [List.length_cons] at hlen
    rw [State.loadBytes]
    cases k with
    | zero =>
      rw [BitVec.add_zero, State.readByte_loadBytes_of_ne fun k hk => word_ne_add_one_add_ofNat base (by omega),
        State.readByte_writeByte, if_pos rfl]
      rfl
    | succ k =>
      rw [← word_add_one_add_ofNat]
      exact ih (by omega) (Nat.lt_of_succ_lt_succ hk)

/-- Settles O56: the acknowledge is one field, the loader one byte of plain memory after the other. -/
theorem hostMovesTouchOnlyMemoryAndTheFrameFlag : Obligations.HostMovesTouchOnlyMemoryAndTheFrameFlag := by
  refine fun s => ⟨⟨s.ackFrame, rfl, ?ack⟩, fun base bytes hlen => ⟨s.loadBytes base bytes, rfl, ?loaded, ?other, ?frame⟩⟩
  case ack => exact ⟨rfl, fun _ => rfl, rfl, rfl, ⟨rfl, rfl⟩, fun _ => rfl, fun _ => rfl, rfl, rfl, rfl⟩
  case loaded => exact fun k hk => State.readByte_loadBytes hlen hk
  case other => exact fun a => State.readByte_loadBytes_of_ne
  case frame =>
    rw [State.loadBytes_eq]
    exact ⟨fun _ => rfl, rfl, rfl, ⟨rfl, rfl⟩, ⟨fun _ => rfl, rfl, rfl⟩, rfl, rfl⟩

/-! ## Stored code -/

theorem State.bytesAt_four (s : State) (p : Word) :
    s.bytesAt p 4 = [s.readByte p, s.readByte (p + 1), s.readByte (p + 2), s.readByte (p + 3)] := by
  simp only [State.bytesAt, BitVec.add_assoc]
  rfl

/-- Settles O9: after the word store the fetch reads the bytes `byteAfterStore` says. -/
theorem storedCodeIsExecuted : Obligations.StoredCodeIsExecuted := by
  intro i j s t a v p rest hstore hplain hrun h hdec
  rw [exec_of_storeForm hstore, s.routerStore_plain a v hplain] at h
  cases h
  have hbytes : ((s.writeWord a v).setPc p).bytesAt p 4 = [byteAfterStore s a v p, byteAfterStore s a v (p + 1),
      byteAfterStore s a v (p + 2), byteAfterStore s a v (p + 3)] := by
    simp only [← s.readByte_writeWord_eq]
    exact State.bytesAt_four _ p
  exact step_of_decode (s := (s.writeWord a v).setPc p) hrun (hbytes.symm ▸ hdec)

end Sys2Proof.Machine
end

section
/-! The invariant of the machine (`State.Inv`): it holds at reset, and every step and every other move of the host keeps it. -/

namespace Sys2Proof.Machine

/-! ## Reset -/

/-- Settles O10: field by field. -/
theorem resetLeavesTheSpecifiedState : Obligations.ResetLeavesTheSpecifiedState := by
  have hregs (p : Params) (k : Fin 16) : (State.resetWith p).regs[k] = 0x0000 := Vector.getElem_replicate k.isLt
  exact fun p => ⟨rfl, fun _ => rfl, rfl, hregs p, rfl, rfl, fun _ => rfl, rfl, rfl, rfl, rfl,
    ⟨launchParams, rfl⟩, fun _ => rfl⟩

theorem State.inv_resetWith {p : Params} (hports : p.PortsDistinct) : (State.resetWith p).Inv := by
  obtain ⟨hmem, hvram⟩ := State.wf_resetWith p
  exact ⟨hmem, hvram, rfl, hports, rfl, fun _ => rfl⟩

/-- Settles O11: the ports of the host's reset state are distinct. -/
theorem resetSatisfiesTheInvariant : Obligations.ResetSatisfiesTheInvariant :=
  ⟨fun _ => State.inv_resetWith, State.inv_resetWith (by decide)⟩

/-! ## The step -/

/-- The record of a fault that the table of 60_exceptions.md R260 gives is one that R261 allows. -/
theorem faultRecord_wf_of_cause {i : Instr} {s : State} (hwf : i.wellFormed = true) (hcause : faultCauseOf s i ≠ .none) :
    (⟨faultCauseOf s i, faultInfoOf s i⟩ : FaultRecord).wf = true := by
  cases i with
  | illegal op => exact hwf
  | add | sub | mul =>
    obtain ⟨hbad, -⟩ := ite_ne_right_iff.mp hcause
    simpa [faultCauseOf, faultInfoOf, FaultRecord.wf, if_pos hbad] using hbad
  | div | mod =>
    obtain ⟨hbad, -⟩ := ite_ne_right_iff.mp hcause
    simpa [faultCauseOf, faultInfoOf, FaultRecord.wf, if_pos hbad, ← BitVec.toNat_inj] using hbad
  | _ => exact absurd rfl hcause

/-- The fault record after an execute phase is one that R261 allows, if the one before it is. -/
theorem exec_fault_wf {i : Instr} {s t : State} (h : exec i s = .next t) (hwf : i.wellFormed = true)
    (hs : s.fault.wf = true) : t.fault.wf = true := by
  rw [exec_fault h]
  split
  · exact hs
  · next hcause => exact faultRecord_wf_of_cause hwf hcause

/-- Settles O12: clause by clause, from what an execute phase can do and the end of the step. -/
theorem stepKeepsTheInvariant : Obligations.StepKeepsTheInvariant := by
  intro s t hinv hstep
  obtain ⟨-, rfl⟩ | ⟨hrun, u, hu, rfl⟩ := step_cases hstep
  · exact hinv
  obtain ⟨hmem, hvram, -, hports, hfault, hcause⟩ := hinv
  have heffect := exec_effect hu
  obtain ⟨hmem', hvram'⟩ := heffect.wf hmem hvram
  have hfault' := exec_fault_wf hu s.fetchInstr_wellFormed hfault
  refine ⟨hmem', hvram', u.endStep_regs_get 0, ?ports, hfault', fun hrun' => ?cause⟩
  case ports =>
    rw [State.endStep_params, heffect.params]
    exact hports
  case cause =>
    obtain ⟨-, -, hnone⟩ := (exec_running hu).mp hrun'
    rw [State.endStep_fault, exec_fault hu, if_pos hnone]
    exact hcause hrun

/-! ## The host's moves -/

theorem State.inv_loadBytes {s : State} (base : Word) (bytes : List Byte) (hinv : s.Inv) :
    (s.loadBytes base bytes).Inv := by
  obtain ⟨hmem, hrest⟩ := hinv
  have hmem' := State.wf_loadBytes base bytes hmem
  rw [State.loadBytes_eq] at hmem' ⊢
  exact ⟨hmem', hrest⟩

theorem applyMove_inv {m : HostMove} {s t : State} (hinv : s.Inv) (h : applyMove m s = .next t) : t.Inv := by
  cases m with
  | reset =>
    cases h
    obtain ⟨-, -, -, hports, -⟩ := hinv
    exact State.inv_resetWith hports
  | load base bytes => cases h; exact State.inv_loadBytes base bytes hinv
  | stepEn => exact stepKeepsTheInvariant s t hinv h
  | frameAck => cases h; exact hinv

/-- Settles O13: by induction over the moves. -/
theorem hostRunsKeepTheInvariant : Obligations.HostRunsKeepTheInvariant := by
  intro ms
  induction ms with
  | nil => intro s t hinv h; cases h; exact hinv
  | cons m ms ih =>
    intro s t hinv h
    rw [applyMoves] at h
    cases hmove : applyMove m s with
    | next u => exact ih u t (applyMove_inv hinv hmove) (by rwa [hmove] at h)
    | fault f => rw [hmove] at h; cases h
    | refused r => rw [hmove] at h; cases h

end Sys2Proof.Machine
end

section
/-! Fault entry and the hidden state (60_exceptions.md R262; 10_state.md R35 to R37): an instruction on its fault condition is a
fault entry, and a change of cursor, VRAM, frame flag or plain memory is a routed store. -/

namespace Sys2Proof.Machine

/-! ## Fault entry -/

/-- On its fault condition an instruction ends in fault entry, whose frame is every field but `fault` and `running`. -/
theorem exec_raises_of_cause {i : Instr} {s t : State} (hcause : faultCauseOf s i ≠ .none) (h : exec i s = .next t) :
    ∃ c o, t = s.raiseFault i c o := by
  cases exec_effectOf h with
  | fault c o => exact ⟨c, o, rfl⟩
  | halted hi => exact absurd (hi ▸ rfl) hcause
  | jump _ _ hnone => exact absurd hnone hcause
  | unchanged hseq | result _ _ hseq | flag _ hseq | store _ _ hseq | text _ hseq => exact absurd hseq.noFault hcause

/-- Settles O21: the record by the tables, the frame by that of fault entry. -/
theorem faultEntryChangesOnlyFaultAndRunning : Obligations.FaultEntryChangesOnlyFaultAndRunning := by
  intro i s hcause
  obtain ⟨t, h⟩ := exec_answers_of_faultCause hcause
  refine ⟨t, h, exec_halted_of_cause hcause h, exec_fault_of_cause hcause h, ?_⟩
  obtain ⟨c, o, rfl⟩ := exec_raises_of_cause hcause h
  exact ⟨fun _ => rfl, rfl, rfl, fun _ => rfl, ⟨fun _ => rfl, rfl, rfl⟩, rfl, rfl⟩

/-! ## What only a routed store changes -/

/-- An execute phase is a routed store, or it leaves both arrays, the cursor and the frame flag alone. -/
theorem exec_store_or_keeps {i : Instr} {s t : State} (h : exec i s = .next t) :
    (∃ a v, StoreForm i s a v ∧ t = s.routerStore a v) ∨ (KeepsMem s t ∧ KeepsDisplay s t) := by
  cases exec_effectOf h with
  | store a v _ hstore => exact .inl ⟨a, v, hstore, rfl⟩
  | result b v =>
    obtain ⟨-, -, -, hmem, hdisplay, -⟩ := s.writeResult_frame b v
    exact .inr ⟨hmem, hdisplay⟩
  | _ => exact .inr ⟨fun _ => rfl, fun _ => rfl, rfl, rfl⟩

section
variable {s : State} {a v : Word}

/-- The cursor after a routed store: only the two address ports move it (20_memory.md R64, R65). -/
theorem State.routerStore_vramCursor_cases (h : (s.routerStore a v).vramCursor ≠ s.vramCursor) :
    (a = s.params.portVramAddrLo ∧ (s.routerStore a v).vramCursor = joinBytes (hiByte s.vramCursor) (loByte v)) ∨
    (a = s.params.portVramAddrHi ∧ (s.routerStore a v).vramCursor = joinBytes (loByte v) (loByte s.vramCursor)) := by
  obtain ⟨-, heq⟩ | ⟨-, ha, heq⟩ | ⟨-, -, ha, heq⟩ | ⟨-, -, -, -, heq⟩ | ⟨-, -, -, -, -, heq⟩ | ⟨-, heq⟩ :=
    s.routerStore_cases a v
  case inr.inl => exact .inl ⟨ha, congrArg State.vramCursor heq⟩
  case inr.inr.inl => exact .inr ⟨ha, congrArg State.vramCursor heq⟩
  all_goals exact absurd (congrArg State.vramCursor heq) h

/-- The VRAM after a routed store: only the data port writes it, at the cursor (R66). -/
theorem State.routerStore_vramByte_of_ne {b : Word} (h : (s.routerStore a v).vramByte b ≠ s.vramByte b) :
    b = s.vramCursor ∧ a = s.params.portVramData ∧ (s.routerStore a v).vramByte b = loByte v := by
  obtain ⟨-, heq⟩ | ⟨-, -, heq⟩ | ⟨-, -, -, heq⟩ | ⟨-, -, -, ha, heq⟩ | ⟨-, -, -, -, -, heq⟩ | ⟨-, heq⟩ :=
    s.routerStore_cases a v
  case inr.inr.inr.inl =>
    rw [heq, State.vramByte_writeVram_emit] at h ⊢
    by_cases hb : b = s.vramCursor
    · exact ⟨hb, ha, if_pos hb⟩
    · exact absurd (if_neg hb) h
  all_goals exact absurd (congrArg (State.vramByte · b) heq) h

/-- The frame flag after a routed store: only the present port sets it (R67). -/
theorem State.routerStore_frameReady_of_ne (h : (s.routerStore a v).frameReady ≠ s.frameReady) :
    (s.routerStore a v).frameReady = true ∧ a = s.params.portPresent := by
  obtain ⟨-, heq⟩ | ⟨-, -, heq⟩ | ⟨-, -, -, heq⟩ | ⟨-, -, -, -, heq⟩ | ⟨-, -, -, -, ha, heq⟩ | ⟨-, heq⟩ :=
    s.routerStore_cases a v
  case inr.inr.inr.inr.inl => exact ⟨congrArg State.frameReady heq, ha⟩
  all_goals exact absurd (congrArg State.frameReady heq) h

/-- Plain memory after a routed store: only its default case writes it, the two bytes of the value (R68). -/
theorem State.routerStore_readByte_of_ne {b : Word} (h : (s.routerStore a v).readByte b ≠ s.readByte b) :
    s.isPort a = false ∧
      ((b = a ∧ (s.routerStore a v).readByte b = loByte v) ∨ (b = a + 1 ∧ (s.routerStore a v).readByte b = hiByte v)) := by
  cases hport : s.isPort a with
  | true => exact absurd (State.readByte_congr (s.routerStore_mem_of_isPort v hport) b) h
  | false =>
    rw [s.routerStore_plain a v hport] at h ⊢
    by_cases hlo : b = a
    · exact ⟨rfl, .inl ⟨hlo, hlo ▸ s.readByte_writeWord_lo b v⟩⟩
    by_cases hhi : b = a + 1
    · exact ⟨rfl, .inr ⟨hhi, hhi ▸ s.readByte_writeWord_hi a v⟩⟩
    · exact absurd (s.readByte_writeWord_of_ne v hlo hhi) h

end

/-- Settles O53: place by place, over the routed store. -/
theorem hiddenStateChangesOnlyThroughItsPort : Obligations.HiddenStateChangesOnlyThroughItsPort := by
  intro i s t h
  obtain ⟨a, v, hstore, rfl⟩ | ⟨hmem, hvram, hcursor, hframe⟩ := exec_store_or_keeps h
  · refine ⟨fun hne => ⟨v, ?cursor⟩, fun b hne => ?vram, fun hne => ?frame, fun b hne => ?memory⟩
    case cursor =>
      exact (State.routerStore_vramCursor_cases hne).imp (fun ⟨ha, heq⟩ => ⟨ha ▸ hstore, heq⟩)
        (fun ⟨ha, heq⟩ => ⟨ha ▸ hstore, heq⟩)
    case vram =>
      obtain ⟨hb, ha, heq⟩ := State.routerStore_vramByte_of_ne hne
      exact ⟨hb, v, ha ▸ hstore, heq⟩
    case frame =>
      obtain ⟨heq, ha⟩ := State.routerStore_frameReady_of_ne hne
      exact ⟨heq, v, ha ▸ hstore⟩
    case memory => exact ⟨a, v, hstore, State.routerStore_readByte_of_ne hne⟩
  · exact ⟨absurd hcursor, fun b => absurd (hvram b), absurd hframe, fun b => absurd (hmem b)⟩

end Sys2Proof.Machine
end

section
/-! Noninterference (10_state.md R41): `SeesSame`, what a program can see of two states. Every operation an execute phase is made
of, and so every instruction, keeps two states alike in it. -/

namespace Sys2Proof.Machine

/-! ## States alike in what a program can see -/

theorem SeesSame.symm {s t : State} (h : SeesSame s t) : SeesSame t s := by
  obtain ⟨hregs, hpc, hz, hmem, hparams⟩ := h
  exact ⟨fun k => (hregs k).symm, hpc.symm, hz.symm, fun a => (hmem a).symm, hparams.symm⟩

theorem SeesSame.trans {s t u : State} (hst : SeesSame s t) (htu : SeesSame t u) : SeesSame s u := by
  obtain ⟨hregs, hpc, hz, hmem, hparams⟩ := hst
  obtain ⟨hregs', hpc', hz', hmem', hparams'⟩ := htu
  exact ⟨fun k => (hregs' k).trans (hregs k), hpc'.trans hpc, hz'.trans hz, fun a => (hmem' a).trans (hmem a),
    hparams'.trans hparams⟩

/-- A store to a port shows a program nothing: it changes hidden state and the trace only (20_memory.md R62). -/
theorem State.seesSame_routerStore_of_isPort (s : State) {a : Word} (v : Word) (hport : s.isPort a = true) :
    SeesSame s (s.routerStore a v) := by
  obtain ⟨hregs, hz, hpc, -, -, hparams⟩ := s.routerStore_core a v
  exact ⟨fun k => by rw [hregs], hpc, hz, State.readByte_congr (s.routerStore_mem_of_isPort v hport), hparams⟩

section
variable {s s' : State} (h : SeesSame s s')
include h

/-! ## Reading from alike states -/

theorem SeesSame.regs : s'.regs = s.regs := by
  obtain ⟨hregs, -⟩ := h
  exact Vector.ext fun k hk => hregs ⟨k, hk⟩

theorem SeesSame.x (b : Byte) : s'.x b = s.x b := State.x_congr h.regs b

theorem SeesSame.z : s'.z = s.z := by
  obtain ⟨-, -, hz, -⟩ := h
  exact hz

theorem SeesSame.params : s'.params = s.params := by
  obtain ⟨-, -, -, -, hparams⟩ := h
  exact hparams

theorem SeesSame.readByte (a : Word) : s'.readByte a = s.readByte a := by
  obtain ⟨-, -, -, hmem, -⟩ := h
  exact hmem a

theorem SeesSame.readWord (a : Word) : s'.readWord a = s.readWord a := by
  rw [State.readWord, h.readByte, h.readByte, State.readWord]

theorem SeesSame.stringAt (n : Nat) (a : Word) : s'.stringAt n a = s.stringAt n a := by
  induction n generalizing a with
  | zero => rfl
  | succ n ih => simp only [State.stringAt, h.readByte, ih]

/-! ## Writing to alike states -/

theorem SeesSame.setZ (b : Bool) : SeesSame (s.setZ b) (s'.setZ b) := by
  obtain ⟨hregs, hpc, -, hrest⟩ := h
  exact ⟨hregs, hpc, rfl, hrest⟩

theorem SeesSame.setPc (w : Word) : SeesSame (s.setPc w) (s'.setPc w) := by
  obtain ⟨hregs, -, hrest⟩ := h
  exact ⟨hregs, rfl, hrest⟩

theorem SeesSame.jumpIf (taken : Bool) (w : Word) : SeesSame (s.jumpIf taken w) (s'.jumpIf taken w) := by
  cases taken with
  | true => exact h.setPc w
  | false => exact h

theorem SeesSame.writeResult (b : Byte) (v : Word) : SeesSame (s.writeResult b v) (s'.writeResult b v) := by
  have hregs : KeepsRegs (s.writeResult b v) (s'.writeResult b v) := fun k => by
    rw [s.writeResult_regs_get, s'.writeResult_regs_get, h.regs]
  obtain ⟨-, hpc, -, hrest⟩ := h
  rw [State.writeResult_eq, State.writeResult_eq] at hregs ⊢
  exact ⟨hregs, hpc, rfl, hrest⟩

theorem SeesSame.writeWord (a v : Word) : SeesSame (s.writeWord a v) (s'.writeWord a v) := by
  have hmem : KeepsMem (s.writeWord a v) (s'.writeWord a v) := fun b => by
    rw [s.readByte_writeWord, s'.readByte_writeWord, h.readByte]
  obtain ⟨hregs, hpc, hz, -, hparams⟩ := h
  exact ⟨hregs, hpc, hz, hmem, hparams⟩

/-- At a port both states show a program what they did before; elsewhere both get the same word. -/
theorem SeesSame.routerStore (a v : Word) : SeesSame (s.routerStore a v) (s'.routerStore a v) := by
  have hsame : s'.isPort a = s.isPort a := by rw [State.isPort, h.params, State.isPort]
  cases hport : s.isPort a with
  | true =>
    have hs := s.seesSame_routerStore_of_isPort v hport
    exact (hs.symm.trans h).trans (s'.seesSame_routerStore_of_isPort v (hsame.trans hport))
  | false =>
    rw [s.routerStore_plain a v hport, s'.routerStore_plain a v (hsame.trans hport)]
    exact h.writeWord a v

/-! ## The execute phase from alike states -/

/-- Two outcomes a program cannot tell apart: next states alike in what it can see, or the same hang. -/
inductive SeesSameOutcome : Host.Outcome State Fault Refusal → Host.Outcome State Fault Refusal → Prop where
  | next {t t' : State} (h : SeesSame t t') : SeesSameOutcome (.next t) (.next t')
  | fault (f : Fault) : SeesSameOutcome (.fault f) (.fault f)

theorem SeesSame.arith_outcome (i : Instr) (r1 r2 : Byte) (c : Cause) (bad : Nat → Nat → Bool) (f : Nat → Nat → Nat) :
    SeesSameOutcome (arith i r1 r2 c bad f s) (arith i r1 r2 c bad f s') := by
  rw [arith_eq, arith_eq, h.x, h.x]
  split
  · exact .next h
  · exact .next (h.writeResult r1 _)

theorem SeesSame.prtstr_outcome (addr : Word) : SeesSameOutcome (exec (.prtstr addr) s) (exec (.prtstr addr) s') := by
  have hstr' := h.stringAt 65536 addr
  cases hstr : s.stringAt 65536 addr with
  | some bs =>
    rw [exec_prtstr_of_some hstr, exec_prtstr_of_some (hstr'.trans hstr)]
    exact .next h
  | none =>
    rw [(exec_prtstr_hangs_iff addr s).mpr hstr, (exec_prtstr_hangs_iff addr s').mpr (hstr'.trans hstr)]
    exact .fault _

/-- An instruction reads the same values in both states and writes them to the same places. -/
theorem SeesSame.exec_outcome (i : Instr) : SeesSameOutcome (exec i s) (exec i s') := by
  cases i with
  | nop | halt | illegal op | out r => exact .next h
  | ldi r imm8 => exact .next (h.writeResult r _)
  | lui r imm8 => rw [exec_lui, exec_lui, h.x]; exact .next (h.writeResult r _)
  | mov r1 r2 => rw [exec_mov, exec_mov, h.x]; exact .next (h.writeResult r1 _)
  | inc r => rw [exec_inc, exec_inc, h.x]; exact .next (h.writeResult r _)
  | add r1 r2 => rw [exec_add, exec_add]; exact h.arith_outcome ..
  | sub r1 r2 => rw [exec_sub, exec_sub]; exact h.arith_outcome ..
  | mul r1 r2 => rw [exec_mul, exec_mul]; exact h.arith_outcome ..
  | div r1 r2 => rw [exec_div, exec_div]; exact h.arith_outcome ..
  | mod r1 r2 => rw [exec_mod, exec_mod]; exact h.arith_outcome ..
  | cmp r1 r2 => rw [exec_cmp, exec_cmp, h.x, h.x]; exact .next (h.setZ _)
  | jmp addr => exact .next (h.setPc addr)
  | jmpr r => rw [exec_jmpr, exec_jmpr, h.x]; exact .next (h.setPc _)
  | jz addr => rw [exec_jz, exec_jz, h.z]; exact .next (h.jumpIf ..)
  | jnz addr => rw [exec_jnz, exec_jnz, h.z]; exact .next (h.jumpIf ..)
  | jzr r => rw [exec_jzr, exec_jzr, h.z, h.x]; exact .next (h.jumpIf ..)
  | jnzr r => rw [exec_jnzr, exec_jnzr, h.z, h.x]; exact .next (h.jumpIf ..)
  | ldAbs r addr => rw [exec_ldAbs, exec_ldAbs, h.readWord]; exact .next (h.writeResult r _)
  | ldReg r1 r2 => rw [exec_ldReg, exec_ldReg, h.x, h.readWord]; exact .next (h.writeResult r1 _)
  | stAbs r addr => rw [exec_stAbs, exec_stAbs, h.x]; exact .next (h.routerStore ..)
  | stReg r1 r2 => rw [exec_stReg, exec_stReg, h.x, h.x]; exact .next (h.routerStore ..)
  | prtstr addr => exact h.prtstr_outcome addr

end

/-- Settles O54: the two outcomes of an instruction from alike states. -/
theorem hiddenStateIsNeverObserved : Obligations.HiddenStateIsNeverObserved := by
  intro i s s' hsame
  have houtcome := hsame.exec_outcome i
  generalize exec i s = o, exec i s' = o' at houtcome
  cases houtcome with
  | next h =>
    refine ⟨fun t ht => ?_, nofun⟩
    cases ht
    exact ⟨_, rfl, h⟩
  | fault f => exact ⟨nofun, fun _ hf => hf⟩

end Sys2Proof.Machine
end
